-- ==== Sys2Proof/Config.lean ====
section
/-! DEFINITION. The parameters of the block (00_scope.md R4) as named constants with the spec's values
(92_eei_decisions.md D24), the widths that follow from them, and the one free value of the model, the random draw (R22, U1). -/

namespace Sys2Proof.Config

/-- `W` (R4): width in bits of every data register, result and command word. -/
@[simp] abbrev wordBits : Nat := 32
/-- `CW` (R4): width in bits of a step count and of a slot id. -/
@[simp] abbrev countBits : Nat := 8
/-- `SH_A` (R4): amount of the first shift of `advance`, to the left. -/
def shA : Nat := 13
/-- `SH_B` (R4): amount of the second shift of `advance`, to the right. -/
def shB : Nat := 17
/-- `SH_C` (R4): amount of the third shift of `advance`, to the left. -/
def shC : Nat := 5
/-- `MASK_HI` (R4): the higher of the two bit positions of the mask overlay. -/
@[simp] abbrev maskHi : Nat := 31
/-- `MASK_LO` (R4): the lower of the two bit positions of the mask overlay. -/
@[simp] abbrev maskLo : Nat := 30
/-- `PAYLOAD_BITS` (R4): number of low bits that carry the pin. -/
def payloadBits : Nat := 30
/-- `SLOT_MAX` (R4): largest legal slot id. -/
def slotMax : Nat := 99
/-- `PIN_MAX` (R4): largest value the HOST SOFTWARE takes for a plausible pin; the block never checks it. -/
def pinMax : Nat := 999999999
/-- `KEYSPACE` (R4): size of the candidate space of the HOST SOFTWARE's search; no limit of the block. -/
def keyspace : Nat := 1000000000
/-- `NREG` (R4): number of register indices of the host interface. -/
@[simp] abbrev nreg : Nat := 8

/-- Width of a register index: "a 3-bit unsigned number" (20_memory.md R30), which names `NREG` registers. -/
@[simp] abbrev indexBits : Nat := 3
/-- Width of a draw: the bit positions the mask overlay occupies, `MASK_LO` to `MASK_HI` (R4, R22). -/
@[simp] abbrev drawBits : Nat := maskHi + 1 - maskLo

/-- FREE VALUE (R22, U1, log 3): the 2-bit value the RND input supplies to the `k`-th draw whose value the
event list does not name. It has no body, so nothing can be proved of it. -/
opaque draw2 : Nat → BitVec drawBits

end Sys2Proof.Config
end

