-- ==== Sys2Proof/Word.lean ====
section
/-! DEFINITION. The widths of the block's values (00_scope.md R4, R5): all unsigned. -/

namespace Sys2Proof

/-- A 32-bit register, operand, result or command word (`W` of R4). -/
abbrev Word := BitVec Config.wordBits
/-- An 8-bit step count or `ARG` field (`CW` of R4). -/
abbrev Count := BitVec Config.countBits
/-- A 4-bit opcode (`OPC` of R46, `OP` of R16). -/
abbrev Opcode := BitVec 4
/-- A 3-bit index of the register space (20_memory.md R30). -/
abbrev RegIndex := BitVec Config.indexBits
/-- The two random bits of one draw (10_state.md R22). -/
abbrev Draw := BitVec Config.drawBits
/-- One byte of the vault file (43_vault_software.md R119); the block itself moves no bytes. -/
abbrev Byte := BitVec 8
/-- A slot id, "an 8-bit identifier in [0, 99]" (R111): the domain on which the pure functions `encode` and
`decode` are defined (R77, R78, U4). -/
abbrev Slot := Fin (Config.slotMax + 1)

end Sys2Proof
end

