-- ==== Sys2Proof/Syntax.lean ====
section
/-! DEFINITION. The six commands (30_encoding.md R48), one constructor per row of spec/opcode_table.json. -/

namespace Sys2Proof

/-- A command word that is legal in form (R49). `encode` and `decode` carry the whole 8-bit `ARG`, because their
rows are selected for every `ARG` (R48); whether the slot id is legal is WellFormed's question and, at run
time, the `InvalidSlot` fault's (R50). -/
inductive Instr where
  /-- `ADVANCE` (R67). -/
  | advance
  /-- `STREAM steps` (R68), `steps` from 0 to 255. -/
  | stream (steps : Count)
  /-- `MASK_IN` (R81). -/
  | maskIn
  /-- `MASK_OUT` (R82). -/
  | maskOut
  /-- `ENCODE id` (R83). -/
  | encode (id : Count)
  /-- `DECODE id` (R84). -/
  | decode (id : Count)
  deriving DecidableEq, Repr

end Sys2Proof
end

