-- ==== Sys2Proof/WellFormed.lean ====
section
/-! DEFINITION. Which commands are well formed: the slot id of `ENCODE` and `DECODE` is at most 99
(30_encoding.md R47, R50). No other command has an operand value that is not legal. -/

namespace Sys2Proof

/-- "the slot id: `id = ARG`, legal only for 0 to 99" (R47). -/
def slotLegal (id : Count) : Bool := decide (id.toNat ≤ Config.slotMax)

/-- The command is one the block accepts when Idle (R48, R50). -/
def Instr.wellFormed : Instr → Bool
  | .advance => true
  | .stream _ => true
  | .maskIn => true
  | .maskOut => true
  | .encode id => slotLegal id
  | .decode id => slotLegal id

end Sys2Proof
end

