-- ==== Sys2Proof/Decode.lean ====
section
/-! DEFINITION. The command word (30_encoding.md): its fields, the decoder, total on all 2^32 words, the opcode
table as rows of mask and match, R52's `decode_cmd`, and the encoder. -/

namespace Sys2Proof

/-! ## Fields of CMD32 (R46) -/

/-- `OPC`, bits 3:0. -/
def opcField (c : Word) : Opcode := c.extractLsb' 0 4
/-- `Z0`, bits 7:4, reserved. -/
def z0Field (c : Word) : BitVec 4 := c.extractLsb' 4 4
/-- `ARG`, bits 15:8. -/
def argField (c : Word) : Count := c.extractLsb' 8 Config.countBits
/-- `Z1`, bits 31:16, reserved. -/
def z1Field (c : Word) : BitVec 16 := c.extractLsb' 16 16

/-! ## Opcodes (R48) -/

/-- The opcode of a command, as latched into `OP`. -/
def opcodeOf : Instr → Opcode
  | .advance => 1
  | .stream _ => 2
  | .maskIn => 3
  | .maskOut => 4
  | .encode _ => 5
  | .decode _ => 6

/-- The `ARG` field of a command; 0 for the commands that have none (R46). -/
def argOf : Instr → Count
  | .advance => 0
  | .stream steps => steps
  | .maskIn => 0
  | .maskOut => 0
  | .encode id => id
  | .decode id => id

/-! ## The decoder -/

/-- A command without an operand: its `ARG` must be 0 (R49 d). -/
def withoutArg (c : Word) (i : Instr) : Option Instr :=
  if argField c = 0 then some i else none

/-- The command a word is, or none where the word is illegal in form (R49), which the write of `CMD` turns into
`IllegalCommand` (R137). -/
def decode (c : Word) : Option Instr :=
  if z1Field c = 0 ∧ z0Field c = 0 then
    match (opcField c).toNat with
    | 1 => withoutArg c .advance
    | 2 => some (.stream (argField c))
    | 3 => withoutArg c .maskIn
    | 4 => withoutArg c .maskOut
    | 5 => some (.encode (argField c))
    | 6 => some (.decode (argField c))
    | _ => none
  else none

/-- The three answers of `decode_cmd` (R52). -/
inductive CmdDecode where
  /-- `Accept(opc, n)`: `opc` is latched into `OP`, `n` loaded into `COUNT`. -/
  | accept (opc : Opcode) (n : Count)
  /-- The word is illegal in form (R49). -/
  | illegalCommand
  /-- The word is `ENCODE` or `DECODE` with a slot id above 99 (R50). -/
  | invalidSlot
  deriving DecidableEq, Repr

/-- R52's `decode_cmd`, in its own order of tests. The machine does not run it: `decode` and `exec` do the same
in two parts, and an obligation states that they agree. -/
def decodeCmd (c : Word) : CmdDecode :=
  if z1Field c ≠ 0 ∨ z0Field c ≠ 0 then .illegalCommand
  else match (opcField c).toNat with
    | 1 => if argField c ≠ 0 then .illegalCommand else .accept 1 1
    | 2 => .accept 2 (argField c)
    | 3 => if argField c ≠ 0 then .illegalCommand else .accept 3 0
    | 4 => if argField c ≠ 0 then .illegalCommand else .accept 4 0
    | 5 => if (argField c).toNat > Config.slotMax then .invalidSlot else .accept 5 (argField c + 1)
    | 6 => if (argField c).toNat > Config.slotMax then .invalidSlot else .accept 6 (argField c + 1)
    | _ => .illegalCommand

/-! ## The opcode table as mask and match (R48, spec/opcode_table.json) -/

/-- One row: a word `c` selects it when `c AND mask = pattern` (R48). -/
structure OpcodeRow where
  mnemonic : String
  opc : Opcode
  mask : Word
  pattern : Word
  deriving DecidableEq, Repr

/-- The six rows of R48. -/
def opcodeTable : List OpcodeRow :=
  [ ⟨"ADVANCE", 1, 0xFFFFFFFF, 0x00000001⟩,
    ⟨"STREAM", 2, 0xFFFF00FF, 0x00000002⟩,
    ⟨"MASK_IN", 3, 0xFFFFFFFF, 0x00000003⟩,
    ⟨"MASK_OUT", 4, 0xFFFFFFFF, 0x00000004⟩,
    ⟨"ENCODE", 5, 0xFFFF00FF, 0x00000005⟩,
    ⟨"DECODE", 6, 0xFFFF00FF, 0x00000006⟩ ]

/-- The word selects the row (R48). -/
def OpcodeRow.selects (row : OpcodeRow) (c : Word) : Bool := (c &&& row.mask) == row.pattern

/-! ## The encoder (R46, R48, R53) -/

/-- The word with opcode `opc`, operand `arg` and zero reserved fields: `Z1 ++ ARG ++ Z0 ++ OPC`. -/
def commandWord (arg : Count) (opc : Opcode) : Word := 0#16 ++ arg ++ 0#4 ++ opc

/-- The command word of a command. -/
def encode (i : Instr) : Word := commandWord (argOf i) (opcodeOf i)

/-! ## The host's reading of a table word -/

/-- The command read from a table word of `nbits` bits whose bits are `w`; a command is 32 bits and there are
none shorter or longer (R45), so the bits above `nbits` are 0 and more than 32 bits is no command. -/
def decodeTableWord (nbits w : Nat) : Option Instr :=
  if nbits ≤ Config.wordBits then decode (BitVec.ofNat Config.wordBits (w % 2 ^ nbits)) else none

end Sys2Proof
end

