-- ==== Sys2Proof/Machine/State.lean ====
section
/-! DEFINITION. The state: the block's whole state (10_state.md R10), the events still to come, what the host has
read, and the draw counter; the machine's stops; the state after reset (R25). -/

namespace Sys2Proof.Machine

/-- "The whole state of one block is the tuple (SEED, DIN, DOUT, LFSR, COUNT, OP, BUSY, DONE, ERR). Nothing else
is state." (R10) -/
structure Block where
  /-- `SEED` (R11): seed of `stream`, argument of `advance`, master key of `encode` and `decode`. -/
  seed : Word
  /-- `DIN` (R12): the pin or the ciphertext word. -/
  din : Word
  /-- `DOUT` (R13): result of the last finished command. -/
  dout : Word
  /-- `LFSR` (R14): the working value of the keystream generator. -/
  lfsr : Word
  /-- `COUNT` (R15): `advance` steps the command in progress still has to do. -/
  count : Count
  /-- `OP` (R16): opcode of the last accepted command, 0 if none. -/
  op : Opcode
  /-- `BUSY` (R18): a command is in progress. -/
  busy : Bool
  /-- `DONE` (R19): `DOUT` is the result of the last accepted command. -/
  done : Bool
  /-- `ERR` (R20): code of the first fault since reset, 0 if none. -/
  err : BitVec 4
  deriving DecidableEq, Repr

/-- The eight registers of the register map (20_memory.md R31). -/
inductive Reg where
  | seed | din | cmd | status | dout | lfsr | count | reserved
  deriving DecidableEq, Repr

/-- The three faults of the block (60_exceptions.md R136). They are recorded in `ERR`; none stops the machine. -/
inductive BlockFault where
  /-- Code 1 (R137). -/
  | illegalCommand
  /-- Code 2 (R138). -/
  | invalidSlot
  /-- Code 3 (R139). -/
  | busyWrite
  deriving DecidableEq, Repr

/-- An event of the block (00_scope.md R7), or the host's waiting loop (R101). -/
inductive Event where
  /-- `Reset` (R155). -/
  | reset
  /-- `HostRead(i)` (R95). -/
  | hostRead (i : RegIndex)
  /-- `HostWrite(i, v)` (R96). -/
  | hostWrite (i : RegIndex) (v : Word)
  /-- `Tick` (R65, R66). `some r` is the line `TICK r=<0..3>` of R53, a tick whose draw, if it takes one, is `r`;
  `none` is the line `TICK`, whose draw is a free value. -/
  | tick (r : Option Draw)
  /-- `WAIT` (R101): the loop of reads of `STATUS`. `gaps` says how many ticks fall after each read that sees the
  command unfinished, first to last; after the last listed gap, one tick falls between two reads (log 5). -/
  | wait (gaps : List Nat)
  deriving DecidableEq, Repr

/-- The state of the model: the block, and beside it the model's own fields for what is outside the block. -/
structure State where
  /-- Everything the spec gives the machine (R10). -/
  block : Block
  /-- MODEL'S OWN (log 1): the events still to come, in the one total order of R39. -/
  events : List Event
  /-- MODEL'S OWN (log 4): the values `HostRead` returned to the host, newest first. -/
  reads : List Word
  /-- MODEL'S OWN (log 3): how many draws of `RND` were taken; the free value is `Config.draw2` of it. -/
  draws : Nat
  deriving DecidableEq, Repr

/-- Why the machine stops. The block's own faults are not here: they are next states (R8, R141). -/
inductive Fault where
  /-- Raised by a finalisation tick whose `OP` is not one of 1 to 6, for which R66 gives no formula. No reachable
  state has it (R24 c). SAFE: the model stops where the spec says nothing can be (log 6). -/
  | finalisationWithoutCommand
  deriving DecidableEq, Repr

/-- Why an instruction has no meaning. -/
inductive Refusal where
  /-- Raised by `exec` for a command that has no meaning yet. SAFE. No arm raises it: every command has one. -/
  | notModelled (mnemonic : String)
  deriving DecidableEq, Repr

/-- The block after `Reset`: every piece of state is 0 (R25). -/
def Block.reset : Block where
  seed := 0
  din := 0
  dout := 0
  lfsr := 0
  count := 0
  op := 0
  busy := false
  done := false
  err := 0

/-- The machine right after reset: the block as R25 says, no event listed, nothing read, no draw taken
(the last three are the model's own: DESIGN CHOICE, log 1, log 3, log 4). -/
def State.reset : State where
  block := Block.reset
  events := []
  reads := []
  draws := 0

/-- Replace the block and leave the model's own fields. -/
def State.withBlock (s : State) (b : Block) : State := { s with block := b }

end Sys2Proof.Machine
end

