-- ==== Sys2Proof/Machine/Flags.lean ====
section
/-! DEFINITION. The status fields: the conditions Idle and Faulted (00_scope.md R9), the word a read of `STATUS`
returns (10_state.md R17), and how acceptance, finalisation and a fault move `BUSY` and `DONE` (R18, R19). -/

namespace Sys2Proof.Machine

/-- "Idle: the condition BUSY = 0 and ERR = 0." (R9) -/
abbrev Block.Idle (b : Block) : Prop := b.busy = false ∧ b.err = 0

/-- "Faulted: the condition ERR != 0." (R9, R142) -/
abbrev Block.Faulted (b : Block) : Prop := b.err ≠ 0

/-- A one-bit field as a 32-bit value. -/
def flagBit (f : Bool) : Word := if f then 1 else 0

/-- `STATUS = zext_32(OP) * 256 + zext_32(ERR) * 16 + DONE * 2 + BUSY` (R17, R95). -/
def statusWord (b : Block) : Word :=
  b.op.zeroExtend Config.wordBits * 256 + b.err.zeroExtend Config.wordBits * 16 + flagBit b.done * 2 + flagBit b.busy

/-- Acceptance: `BUSY <- 1`, `DONE <- 0` (R18, R19, R99). -/
def markAccepted (b : Block) : Block := { b with busy := true, done := false }

/-- Finalisation: `BUSY <- 0`, `DONE <- 1` (R18, R19, R66). -/
def markFinished (b : Block) : Block := { b with busy := false, done := true }

/-- Fault: `BUSY <- 0`, `DONE <- 0` (R18, R19, R141). -/
def markStopped (b : Block) : Block := { b with busy := false, done := false }

end Sys2Proof.Machine
end

