-- ==== Sys2Proof/Machine/Operands.lean ====
section
/-! DEFINITION. Operand forms: the two shifts (00_scope.md R6, 40_keystream.md R60), the register index
(20_memory.md R31), the step count of each command (30_encoding.md R47), the payload mask. -/

namespace Sys2Proof.Machine

/-- `shl32(v, k)` (R6, R60): bits moved past bit 31 are lost, zeros enter at bit 0. -/
def shl32 (v : Word) (k : Nat) : Word := v <<< k

/-- `shr32(v, k)` (R6, R60): logical, bits moved past bit 0 are lost, zeros enter at bit 31. -/
def shr32 (v : Word) (k : Nat) : Word := v >>> k

/-- The low `PAYLOAD_BITS` bits, `0x3FFFFFFF` (R75, R76). -/
def payloadMask : Word := BitVec.ofNat Config.wordBits (2 ^ Config.payloadBits - 1)

/-- The register an index names (R31); the map is complete. -/
def regAt (i : RegIndex) : Reg :=
  match i.toNat with
  | 0 => .seed
  | 1 => .din
  | 2 => .cmd
  | 3 => .status
  | 4 => .dout
  | 5 => .lfsr
  | 6 => .count
  | _ => .reserved

/-- The step count of a slot id, `id + 1`; computed only for `id <= 99`, so it does not wrap (R47, R60). -/
def slotSteps (id : Count) : Count := id + 1

end Sys2Proof.Machine
end

