-- ==== Sys2Proof/Machine/Ops.lean ====
section
/-! DEFINITION. The operations every event and command shares: reading a register, taking a fault, leaving it by
reset, the gate of a host write, accepting a command, taking a draw. -/

namespace Sys2Proof.Machine

/-! ## Reading (42_host_access.md R95) -/

/-- The value `HostRead` returns for a register. -/
def readReg (b : Block) : Reg → Word
  | .seed => b.seed
  | .din => b.din
  | .cmd => 0
  | .status => statusWord b
  | .dout => b.dout
  | .lfsr => b.lfsr
  | .count => b.count.zeroExtend Config.wordBits
  | .reserved => 0

/-- `x[i]` (R95): the value a read of index `i` returns. -/
def readIndex (b : Block) (i : RegIndex) : Word := readReg b (regAt i)

/-! ## Faults (60_exceptions.md) -/

/-- The code a fault writes to `ERR` (R136). -/
def faultCode : BlockFault → BitVec 4
  | .illegalCommand => 1
  | .invalidSlot => 2
  | .busyWrite => 3

/-- Taking a fault (R141): `ERR <- e`, `BUSY <- 0`, `DONE <- 0`, and nothing else. No handler, no saved state. -/
def takeFault (e : BlockFault) (b : Block) : Block := { markStopped b with err := faultCode e }

/-- `Reset` (R156): every piece of state takes its value of R25, whatever the state before. It is the only way out
of the Faulted condition (R143); there is no return-from-fault command. -/
def resetBlock (_ : Block) : Block := Block.reset

/-! ## Host writes (R96, R140) -/

/-- The gate of a write of index 0, 1 or 2: ignored when Faulted, `BusyWrite` while a command is in progress,
performed when Idle (R96; the order is R140's). -/
def gatedWrite (perform : Block → Block) (b : Block) : Block :=
  if b.err ≠ 0 then b
  else if b.busy then takeFault .busyWrite b
  else perform b

/-! ## Acceptance (R99) -/

/-- "`opc in {1, 2, 5, 6}`": the commands that load `LFSR` from `SEED` (R99, R14). -/
def loadsLfsr (opc : Opcode) : Bool := opc == 1 || opc == 2 || opc == 5 || opc == 6

/-- Accepting a command (R99): `OP <- opc`, `COUNT <- n`, `LFSR <- SEED` for the keystream commands, `BUSY <- 1`,
`DONE <- 0`, and nothing else. -/
def acceptCommand (opc : Opcode) (n : Count) (b : Block) : Block :=
  { markAccepted b with
    op := opc
    count := n
    lfsr := if loadsLfsr opc then b.seed else b.lfsr }

/-- Accepting a command with a slot id (R50, R52): `InvalidSlot` above 99, else a step count of `id + 1`. -/
def acceptSlotCommand (opc : Opcode) (id : Count) (b : Block) : Block :=
  if slotLegal id then acceptCommand opc (slotSteps id) b else takeFault .invalidSlot b

/-- Write a command's acceptance to the machine: one `HostWrite(2, c)` event, past the gate. -/
def commandEvent (accept : Block → Block) (s : State) : Host.Outcome State Fault Refusal :=
  .next (s.withBlock (gatedWrite accept s.block))

/-! ## Draws (R22) -/

/-- "taken only when OP is 3 or 5; otherwise no draw" (R66). -/
def takesDraw (opc : Opcode) : Bool := opc == 3 || opc == 5

/-- `draw2()` (R22): the value the tick names, or the free value of this draw. -/
def drawValue (r : Option Draw) (draws : Nat) : Draw := r.getD (Config.draw2 draws)

end Sys2Proof.Machine
end

