-- ==== Sys2Proof/Machine/Keystream.lean ====
section
/-! DEFINITION. The keystream family (40_keystream.md): the pure functions `advance` and `stream`, and the commands
`ADVANCE` and `STREAM`, each with its acceptance and its result formula. -/

namespace Sys2Proof.Machine

/-- `advance(s)` (R61): three stages one after the other, each the value XOR a shifted copy of itself. -/
def advance (s : Word) : Word :=
  let t1 := s ^^^ shl32 s Config.shA
  let t2 := t1 ^^^ shr32 t1 Config.shB
  t2 ^^^ shl32 t2 Config.shC

/-- `stream(seed, steps)` (R63): `advance` applied `steps` times. -/
def stream (seed : Word) : Nat → Word
  | 0 => seed
  | n + 1 => advance (stream seed n)

/-- `ADVANCE` (R67): acceptance loads `LFSR <- SEED`, `COUNT <- 1`, `OP <- 1`. -/
def execAdvance (s : State) : Host.Outcome State Fault Refusal :=
  commandEvent (acceptCommand 1 1) s

/-- `ADVANCE` (R66, R67): the value its finalisation writes to `DOUT`. -/
def resultAdvance (b : Block) : Word := b.lfsr

/-- `STREAM steps` (R68): acceptance loads `LFSR <- SEED`, `COUNT <- steps`, `OP <- 2`. -/
def execStream (steps : Count) (s : State) : Host.Outcome State Fault Refusal :=
  commandEvent (acceptCommand 2 steps) s

/-- `STREAM` (R66, R68): the value its finalisation writes to `DOUT`. -/
def resultStream (b : Block) : Word := b.lfsr

end Sys2Proof.Machine
end

