-- ==== Sys2Proof/Machine/Cipher.lean ====
section
/-! DEFINITION. The cipher family (41_cipher.md): the pure functions `mask_in`, `mask_out`, `encode`, `decode`, and
the commands `MASK_IN`, `MASK_OUT`, `ENCODE`, `DECODE`, each with its acceptance and its result formula. -/

namespace Sys2Proof.Machine

/-! ## The pure functions -/

/-- `mask_in(pin, r)` (R75): bits 31 and 30 are replaced by the draw, bits 29 to 0 kept. -/
def maskIn (pin : Word) (r : Draw) : Word :=
  (pin &&& payloadMask) ||| shl32 (r.zeroExtend Config.wordBits) Config.maskLo

/-- `mask_out(word)` (R76): bits 31 and 30 cleared. -/
def maskOut (word : Word) : Word := word &&& payloadMask

/-- `encode(master, id, pin, r)` (R77), defined on slots only (U4). -/
def cipherEncode (master : Word) (id : Slot) (pin : Word) (r : Draw) : Word :=
  stream master (id.val + 1) ^^^ maskIn pin r

/-- `decode(master, id, word)` (R78), defined on slots only (U4). -/
def cipherDecode (master : Word) (id : Slot) (word : Word) : Word :=
  maskOut (stream master (id.val + 1) ^^^ word)

/-! ## The commands -/

/-- `MASK_IN` (R81): acceptance loads `COUNT <- 0`, `OP <- 3` and leaves `LFSR`. -/
def execMaskIn (s : State) : Host.Outcome State Fault Refusal :=
  commandEvent (acceptCommand 3 0) s

/-- `MASK_IN` (R66, R81): the value its finalisation writes to `DOUT`, with the draw it takes. -/
def resultMaskIn (b : Block) (r : Draw) : Word := maskIn b.din r

/-- `MASK_OUT` (R82): acceptance loads `COUNT <- 0`, `OP <- 4` and leaves `LFSR`. -/
def execMaskOut (s : State) : Host.Outcome State Fault Refusal :=
  commandEvent (acceptCommand 4 0) s

/-- `MASK_OUT` (R66, R82): the value its finalisation writes to `DOUT`. -/
def resultMaskOut (b : Block) : Word := maskOut b.din

/-- `ENCODE id` (R83): acceptance loads `LFSR <- SEED`, `COUNT <- id + 1`, `OP <- 5`; `InvalidSlot` for `id > 99`. -/
def execEncode (id : Count) (s : State) : Host.Outcome State Fault Refusal :=
  commandEvent (acceptSlotCommand 5 id) s

/-- `ENCODE` (R66, R83): the value its finalisation writes to `DOUT`, with the draw it takes; the mask is laid over
the pin first and the keystream XORed over all 32 bits after (90_conflicts.md C3). -/
def resultEncode (b : Block) (r : Draw) : Word := b.lfsr ^^^ maskIn b.din r

/-- `DECODE id` (R84): acceptance loads `LFSR <- SEED`, `COUNT <- id + 1`, `OP <- 6`; `InvalidSlot` for `id > 99`. -/
def execDecode (id : Count) (s : State) : Host.Outcome State Fault Refusal :=
  commandEvent (acceptSlotCommand 6 id) s

/-- `DECODE` (R66, R84): the value its finalisation writes to `DOUT`. -/
def resultDecode (b : Block) : Word := maskOut (b.lfsr ^^^ b.din)

end Sys2Proof.Machine
end

