-- ==== Sys2Proof/Machine/Dispatch.lean ====
section
/-! DEFINITION. One arm per command: the meaning of writing its word to `CMD` (42_host_access.md R99). -/

namespace Sys2Proof.Machine

def exec (i : Instr) (s : State) : Host.Outcome State Fault Refusal :=
  match i with
  | .advance => Sys2Proof.Machine.execAdvance s
  | .stream steps => Sys2Proof.Machine.execStream steps s
  | .maskIn => Sys2Proof.Machine.execMaskIn s
  | .maskOut => Sys2Proof.Machine.execMaskOut s
  | .encode id => Sys2Proof.Machine.execEncode id s
  | .decode id => Sys2Proof.Machine.execDecode id s

end Sys2Proof.Machine
end

