-- ==== Sys2Proof/Machine/Sequencer.lean ====
section
/-! DEFINITION. The sequencer (40_keystream.md R65, R66): what one `Tick` does. -/

namespace Sys2Proof.Machine

/-- Advancing tick (R65): `LFSR <- advance(LFSR)`, `COUNT <- COUNT - 1`, and nothing else. -/
def advancingTick (b : Block) : Block :=
  { b with lfsr := advance b.lfsr, count := b.count - 1 }

/-- The `case OP of` of R66: the value of `DOUT`, or none where `OP` is no command's opcode (log 6). -/
def finalResult (b : Block) (r : Draw) : Option Word :=
  match b.op.toNat with
  | 1 => some (resultAdvance b)
  | 2 => some (resultStream b)
  | 3 => some (resultMaskIn b r)
  | 4 => some (resultMaskOut b)
  | 5 => some (resultEncode b r)
  | 6 => some (resultDecode b)
  | _ => none

/-- The block after a finalisation tick that writes `v` (R66): `DOUT <- v`, `BUSY <- 0`, `DONE <- 1`. -/
def finishWith (v : Word) (b : Block) : Block := { markFinished b with dout := v }

/-- Finalisation tick (R66): writes `DOUT`, `BUSY`, `DONE` together and takes a draw for `MASK_IN` and `ENCODE`. -/
def finalisationTick (r : Option Draw) (s : State) : Host.Outcome State Fault Refusal :=
  match finalResult s.block (drawValue r s.draws) with
  | some v =>
    .next { s with
      block := finishWith v s.block
      draws := if takesDraw s.block.op then s.draws + 1 else s.draws }
  | none => .fault .finalisationWithoutCommand

/-- One `Tick`: where `BUSY = 0` the sequencer has no step, "a step that changes nothing" (R65, log 7). -/
def tick (r : Option Draw) (s : State) : Host.Outcome State Fault Refusal :=
  if s.block.busy = false then .next s
  else if s.block.count ≠ 0 then .next (s.withBlock (advancingTick s.block))
  else finalisationTick r s

end Sys2Proof.Machine
end

