-- ==== Sys2Proof/Machine/HostAccess.lean ====
section
/-! DEFINITION. The events (00_scope.md R7): host reads and writes, command acceptance and the waiting loop
(42_host_access.md R95 to R101), reset (70_reset_and_hazards.md R155, R156), ticks. -/

namespace Sys2Proof.Machine

/-- `HostRead(i)` (R95, R36): returns `x[i]` to the host and changes no state of the block. -/
def hostRead (i : RegIndex) (s : State) : State :=
  { s with reads := readIndex s.block i :: s.reads }

/-- A write of `CMD` (R99): a word that is legal in form is executed, any other raises `IllegalCommand` (R137);
both only past the gate of R96. -/
def commandWrite (c : Word) (s : State) : Host.Outcome State Fault Refusal :=
  match decode c with
  | some i => exec i s
  | none => commandEvent (takeFault .illegalCommand) s

/-- `SEED <- v` (R97). -/
def writeSeed (v : Word) (b : Block) : Block := { b with seed := v }

/-- `DIN <- v` (R98). -/
def writeDin (v : Word) (b : Block) : Block := { b with din := v }

/-- `HostWrite(i, v)` (R96): indices 3 to 7 are ignored in every state (R100), 0 to 2 pass the gate. -/
def hostWrite (i : RegIndex) (v : Word) (s : State) : Host.Outcome State Fault Refusal :=
  match regAt i with
  | .seed => .next (s.withBlock (gatedWrite (writeSeed v) s.block))
  | .din => .next (s.withBlock (gatedWrite (writeDin v) s.block))
  | .cmd => commandWrite v s
  | .status => .next s
  | .dout => .next s
  | .lfsr => .next s
  | .count => .next s
  | .reserved => .next s

/-- The test that ends a `WAIT` (R101): `v[1] = 1 or v[7:4] != 0` of the `STATUS` value read. -/
def waitOver (v : Word) : Bool := v.getLsbD 1 || v.extractLsb' 4 4 != 0

/-- What a `WAIT` that saw the command unfinished leaves to come: the ticks of the next gap, then the next read. -/
def waitAgain : List Nat → List Event
  | [] => [.tick none, .wait []]
  | g :: gaps => List.replicate g (.tick none) ++ [.wait gaps]

/-- One turn of `WAIT` (R101): one `HostRead(3)`; the loop goes on unless the value read ends it. -/
def waitTurn (gaps : List Nat) (s : State) : State :=
  if waitOver (readIndex s.block 3) then hostRead 3 s
  else { hostRead 3 s with events := waitAgain gaps ++ s.events }

/-- What one event does to the machine. -/
def performEvent (e : Event) (s : State) : Host.Outcome State Fault Refusal :=
  match e with
  | .reset => .next (s.withBlock (resetBlock s.block))
  | .hostRead i => .next (hostRead i s)
  | .hostWrite i v => hostWrite i v s
  | .tick r => tick r s
  | .wait gaps => .next (waitTurn gaps s)

/-- The event that happens next: the first one listed, and where none is listed a `Tick`, since the sequencer of a
busy block does not stand still for ever (70_reset_and_hazards.md R166, log 2). -/
def nextEvent (s : State) : Event := s.events.headD (.tick none)

/-- The machine with its next event taken off the list. -/
def afterNextEvent (s : State) : State := { s with events := s.events.tail }

/-- The machine with the write of the command word `c` as its next event. -/
def withCommandWrite (s : State) (c : Word) : State :=
  { s with events := .hostWrite 2 c :: s.events }

end Sys2Proof.Machine
end

