-- ==== Sys2Proof/Machine/Step.lean ====
section
/-! DEFINITION. One step of the machine is one event (20_memory.md R38, R39); how a command word is placed. -/

namespace Sys2Proof.Machine

/-- One step: the next event happens, whole (R38). -/
def step (s : State) : Host.Outcome State Fault Refusal :=
  performEvent (nextEvent s) (afterNextEvent s)

/-- `s` with the host's write of that command word to `CMD` as the very next event. The block fetches nothing (R23);
a program comes to run only because the host writes its commands (log 1). -/
def State.withFetchWord (s : State) (nbits w : Nat) : State :=
  withCommandWrite s (BitVec.ofNat Config.wordBits (w % 2 ^ nbits))

end Sys2Proof.Machine
end

