-- ==== Sys2Proof/Machine/HostProgram.lean ====
section
/-! DEFINITION. Host programs: the line syntax of 30_encoding.md R53 and the pseudo-operations of R54 as data, with
their expansion into events (42_host_access.md R103). Not part of the block. -/

namespace Sys2Proof.Machine

/-- The index of a register (R31). -/
def indexOf : Reg → RegIndex
  | .seed => 0
  | .din => 1
  | .cmd => 2
  | .status => 3
  | .dout => 4
  | .lfsr => 5
  | .count => 6
  | .reserved => 7

/-- The event that writes a command's word (R53, third column). -/
def commandLine (i : Instr) : Event := .hostWrite (indexOf .cmd) (encode i)

/-! ## The pseudo-operations of R54. `gaps` is the schedule of ticks inside the `WAIT` (log 5). DESIGN CHOICE (log 21):
between the lines of an expansion, outside its `WAIT`, no tick is placed, where R39 and U12 leave any number open; in
particular none falls between the command write and the first read of `STATUS`. -/

/-- `CALL_ADVANCE s`; no tick outside the `WAIT`, as in every expansion here (DESIGN CHOICE, log 21). -/
def callAdvance (gaps : List Nat) (s : Word) : List Event :=
  [.hostWrite (indexOf .seed) s, commandLine .advance, .wait gaps, .hostRead (indexOf .dout)]

/-- `CALL_STREAM s, n`. -/
def callStream (gaps : List Nat) (s : Word) (n : Count) : List Event :=
  [.hostWrite (indexOf .seed) s, commandLine (.stream n), .wait gaps, .hostRead (indexOf .dout)]

/-- `CALL_MASK_IN p`. -/
def callMaskIn (gaps : List Nat) (p : Word) : List Event :=
  [.hostWrite (indexOf .din) p, commandLine .maskIn, .wait gaps, .hostRead (indexOf .dout)]

/-- `CALL_MASK_OUT w`. -/
def callMaskOut (gaps : List Nat) (w : Word) : List Event :=
  [.hostWrite (indexOf .din) w, commandLine .maskOut, .wait gaps, .hostRead (indexOf .dout)]

/-- `CALL_ENCODE m, i, p`. -/
def callEncode (gaps : List Nat) (m : Word) (i : Slot) (p : Word) : List Event :=
  [.hostWrite (indexOf .seed) m, .hostWrite (indexOf .din) p,
    commandLine (.encode (BitVec.ofNat Config.countBits i.val)), .wait gaps, .hostRead (indexOf .dout)]

/-- `CALL_DECODE m, i, w`. -/
def callDecode (gaps : List Nat) (m : Word) (i : Slot) (w : Word) : List Event :=
  [.hostWrite (indexOf .seed) m, .hostWrite (indexOf .din) w,
    commandLine (.decode (BitVec.ofNat Config.countBits i.val)), .wait gaps, .hostRead (indexOf .dout)]

/-! ## Lines and the assembler (R53) -/

/-- `<reg>`: "a name of R31 or an index 0 to 7". -/
inductive RegRef where
  | name (r : Reg)
  | index (n : Nat)
  deriving DecidableEq, Repr

/-- A line of a host program; operands are the numbers as written. -/
inductive Line where
  | reset
  | wr (reg : RegRef) (value : Nat)
  | rd (reg : RegRef)
  | advance
  | stream (steps : Nat)
  | maskIn
  | maskOut
  | encode (id : Nat)
  | decode (id : Nat)
  | tick
  | tickDraw (r : Nat)
  | wait
  | callAdvance (s : Nat)
  | callStream (s n : Nat)
  | callMaskIn (p : Nat)
  | callMaskOut (w : Nat)
  | callEncode (m i p : Nat)
  | callDecode (m i w : Nat)
  deriving DecidableEq, Repr

/-- A number that fits `n` bits, as a value of that width. -/
def fitting (n v : Nat) : Option (BitVec n) :=
  if v < 2 ^ n then some (BitVec.ofNat n v) else none

/-- A slot id in range: "An assembler for this syntax refuses [...] an `id` above 99" (R53). -/
def slotOperand (id : Nat) : Option Slot :=
  if h : id < Config.slotMax + 1 then some ⟨id, h⟩ else none

/-- The index a register reference names. -/
def refIndex : RegRef → Option RegIndex
  | .name r => some (indexOf r)
  | .index n => if n < Config.nreg then some (BitVec.ofNat Config.indexBits n) else none

/-- The events of a line, or none where the assembler refuses it (R53, R54). -/
def assemble : Line → Option (List Event)
  | .reset => some [.reset]
  | .wr reg value => do return [.hostWrite (← refIndex reg) (← fitting Config.wordBits value)]
  | .rd reg => do return [.hostRead (← refIndex reg)]
  | .advance => some [commandLine .advance]
  | .stream steps => do return [commandLine (.stream (← fitting Config.countBits steps))]
  | .maskIn => some [commandLine .maskIn]
  | .maskOut => some [commandLine .maskOut]
  | .encode id => do return [commandLine (.encode (BitVec.ofNat Config.countBits (← slotOperand id).val))]
  | .decode id => do return [commandLine (.decode (BitVec.ofNat Config.countBits (← slotOperand id).val))]
  | .tick => some [.tick none]
  | .tickDraw r => do return [.tick (some (← fitting Config.drawBits r))]
  | .wait => some [.wait []]
  | .callAdvance s => do return callAdvance [] (← fitting Config.wordBits s)
  | .callStream s n => do return callStream [] (← fitting Config.wordBits s) (← fitting Config.countBits n)
  | .callMaskIn p => do return callMaskIn [] (← fitting Config.wordBits p)
  | .callMaskOut w => do return callMaskOut [] (← fitting Config.wordBits w)
  | .callEncode m i p => do return callEncode [] (← fitting Config.wordBits m) (← slotOperand i) (← fitting Config.wordBits p)
  | .callDecode m i w => do return callDecode [] (← fitting Config.wordBits m) (← slotOperand i) (← fitting Config.wordBits w)

/-- The events of a whole program, or none where a line of it is refused. Between two lines it places no tick but those
the program's own `TICK` lines name (DESIGN CHOICE, log 21). -/
def assembleProgram : List Line → Option (List Event)
  | [] => some []
  | l :: ls => do return (← assemble l) ++ (← assembleProgram ls)

end Sys2Proof.Machine
end

