-- ==== Sys2Proof/Machine/Vault.lean ====
section
/-! DEFINITION. HOST SOFTWARE, outside the block (00_scope.md R3): the data model and the Vault Codec
(43_vault_software.md R110 to R119, R130, R131), and the byte order of a ciphertext word in the vault file
(20_memory.md R35). Pure functions; no step of the machine runs them. -/

namespace Sys2Proof.Machine

/-! ## Data model -/

/-- Raw Record (R113): "(Slot id, 32-bit ciphertext word)". -/
structure RawRecord where
  slot : Slot
  word : Word
  deriving DecidableEq, Repr

/-- A slot with its decoded pin: what the editor works on (R129). -/
structure PinRecord where
  slot : Slot
  pin : Word
  deriving DecidableEq, Repr

/-- A record about to be saved: its slot, its plaintext, its ciphertext word (R118). -/
structure SaveRecord where
  slot : Slot
  pin : Word
  word : Word
  deriving DecidableEq, Repr

/-- The four parse-time errors (R130). They are return values of `parse`, not faults of the block (C10). -/
inductive ParseError where
  | emptyInput | truncatedInput | invalidSlot | duplicateSlot
  deriving DecidableEq, Repr

/-- What U8 leaves to the host software: which error is reported when several checks fail (the failing check of
least rank, the earlier in the list on a tie), and what bytes past `1 + 5n` are (none: ignored; some `e`: rejected
as `e`, and only where no other check fails). A parameter, so a statement about `parse` holds for every policy
(log 12). -/
structure CodecPolicy where
  rank : ParseError → Nat
  trailing : Option ParseError

/-! ## Bytes (R35) -/

/-- "the four bytes are big-endian" (R35): bits 31 to 24 at the lowest file offset. -/
def wordToBytes (w : Word) : List Byte :=
  [w.extractLsb' 24 8, w.extractLsb' 16 8, w.extractLsb' 8 8, w.extractLsb' 0 8]

/-- The word whose file bytes are `a`, `b`, `c`, `d` in that order (R35). -/
def bytesToWord (a b c d : Byte) : Word := a ++ b ++ c ++ d

/-! ## parse (R117) -/

/-- The records wholly present after the count byte: id at byte `1 + 5k`, word at bytes `2 + 5k` to `5 + 5k`. -/
def entries : List Byte → List (Byte × Word)
  | id :: a :: b :: c :: d :: rest => (id, bytesToWord a b c d) :: entries rest
  | _ => []

/-- The record of an entry whose id is a slot. -/
def entryRecord (e : Byte × Word) : Option RawRecord :=
  if h : e.1.toNat < Config.slotMax + 1 then some ⟨⟨e.1.toNat, h⟩, e.2⟩ else none

/-- The checks after the empty check that fail for count `n` and the bytes after the count byte; the id checks look
at the declared records that are wholly present (log 13). -/
def failingChecks (n : Byte) (rest : List Byte) : List ParseError :=
  let ids := ((entries rest).take n.toNat).map (·.1)
  (if rest.length < 5 * n.toNat then [.truncatedInput] else [])
    ++ (if ids.any (fun id => decide (id.toNat > Config.slotMax)) then [.invalidSlot] else [])
    ++ (if ids.Nodup then [] else [.duplicateSlot])

/-- The error of least rank. -/
def reported (p : CodecPolicy) : List ParseError → Option ParseError
  | [] => none
  | e :: es =>
    match reported p es with
    | none => some e
    | some f => if p.rank f < p.rank e then some f else some e

/-- `parse(bytes)` (R117); a vault "is either fully accepted or entirely rejected" (R131). DESIGN CHOICE (log 12): bytes
past `1 + 5n`, where the policy rejects them, are reported after the four checks, so only when none of those fails. -/
def parse (p : CodecPolicy) : List Byte → Except ParseError (List RawRecord)
  | [] => .error .emptyInput
  | n :: rest =>
    match reported p (failingChecks n rest) with
    | some e => .error e
    | none =>
      match (if 5 * n.toNat < rest.length then p.trailing else none) with
      | some e => .error e
      | none => .ok (((entries rest).take n.toNat).filterMap entryRecord)

/-! ## Loading (R114, R129) -/

/-- Put a record before the first one of a larger slot. -/
def insertBySlot (r : RawRecord) : List RawRecord → List RawRecord
  | [] => [r]
  | q :: qs => if r.slot ≤ q.slot then r :: q :: qs else q :: insertBySlot r qs

/-- "sorted by Slot id after loading" (R114). -/
def sortBySlot : List RawRecord → List RawRecord
  | [] => []
  | r :: rs => insertBySlot r (sortBySlot rs)

/-- Load a vault: parse, then sort by slot (R114). DESIGN CHOICE (log 24): `parse` keeps the order of the file and the
loader sorts; the source does not say which of the two does. -/
def loadVault (p : CodecPolicy) (bytes : List Byte) : Except ParseError (List RawRecord) :=
  (parse p bytes).map sortBySlot

/-- The editor's pins of a validated vault: each record decoded under the master key (R129). -/
def openRecords (master : Word) (rs : List RawRecord) : List PinRecord :=
  rs.map fun r => ⟨r.slot, cipherDecode master r.slot r.word⟩

/-- The editor's way in (R129): bytes, validated before any record is decoded, "mandatory and unconditional, never
skippable" (R130). -/
def openVault (p : CodecPolicy) (master : Word) (bytes : List Byte) : Except ParseError (List PinRecord) :=
  (loadVault p bytes).map (openRecords master)

/-! ## Saving (R118, R119) -/

/-- "on save, plaintext + master key → Cipher.encode" (R118, R129): a fresh draw for each record, `draws k` for the
`k`-th. -/
def sealRecords (master : Word) (draws : Nat → Draw) : List PinRecord → List SaveRecord
  | [] => []
  | r :: rs =>
    ⟨r.slot, r.pin, cipherEncode master r.slot r.pin (draws 0)⟩
      :: sealRecords master (fun k => draws (k + 1)) rs

/-- The five file bytes of a record (R119). -/
def recordBytes (r : SaveRecord) : List Byte :=
  BitVec.ofNat 8 r.slot.val :: wordToBytes r.word

/-- The decoded plaintext of a record about to be saved: what its ciphertext word decodes to under the key it was
encoded with, the pin without bits 31 and 30 (R79). -/
def SaveRecord.plaintext (r : SaveRecord) : Word := maskOut r.pin

/-- The records that are written: "each record whose decoded plaintext is nonzero" (R118), so that "saving never
persists a zero-valued pin" (R114); a pin of `2^30` or more whose low 30 bits are 0 decodes to 0 and is dropped
(DEDUCED, log 22). -/
def savedRecords (rs : List SaveRecord) : List SaveRecord := rs.filter (fun r => r.plaintext != 0)

/-- `serialize(records)` (R118): the number of records written, then each record's bytes. -/
def serialize (rs : List SaveRecord) : List Byte :=
  BitVec.ofNat 8 (savedRecords rs).length :: (savedRecords rs).flatMap recordBytes

/-- The editor's save path (R129): encode, then serialize. -/
def saveVault (master : Word) (draws : Nat → Draw) (rs : List PinRecord) : List Byte :=
  serialize (sealRecords master draws rs)

end Sys2Proof.Machine
end

