-- ==== Sys2Proof/Machine/Search.lean ====
section
/-! DEFINITION. HOST SOFTWARE, outside the block (00_scope.md R3): the Cracking Engine (43_vault_software.md R115,
R120 to R125). Pure functions; no step of the machine runs them. -/

namespace Sys2Proof.Machine

/-- Candidate (R115): "a (MasterKey, score: u32) pair". A score is at most the number of records. -/
structure Candidate where
  master : Word
  score : Nat
  deriving DecidableEq, Repr

/-- The two modes (R120), each with the decoded values that count: the weak set of the heuristic mode, whose numerals
the source does not give (U6, log 14), or the caller's list of suspected plaintexts (R122). -/
inductive SearchMode where
  | heuristic (weak : List Word)
  | known (pins : List Word)
  deriving DecidableEq, Repr

/-- Why a search does not run. -/
inductive SearchStop where
  /-- Known-plaintext mode without a plaintext (R122). -/
  | emptyKnownSet
  /-- `T = 0`, which the source does not define (R123, U10). -/
  | noWorkers
  deriving DecidableEq, Repr

/-- The decoded values a mode counts (R121, R122). -/
def SearchMode.interesting : SearchMode → List Word
  | .heuristic weak => weak
  | .known pins => pins

/-- The short-circuiting fold of R121: a decode above 999999999 makes the score 0 and ends the evaluation. -/
def scoreFrom (mode : SearchMode) (key : Word) (acc : Nat) : List RawRecord → Nat
  | [] => acc
  | r :: rs =>
    let v := cipherDecode key r.slot r.word
    if v.toNat > Config.pinMax then 0
    else scoreFrom mode key (if mode.interesting.contains v then acc + 1 else acc) rs

/-- The score of a candidate key (R121, R122). -/
def score (mode : SearchMode) (vault : List RawRecord) (key : Word) : Nat :=
  scoreFrom mode key 0 vault

/-- The keys worker `i` of `T` evaluates: `i, i+T, i+2T, ...` below `bound` (R123). -/
def workerKeys (bound T i : Nat) : List Nat :=
  (List.range ((bound - i + T - 1) / T)).map fun j => i + j * T

/-- The candidates of one worker (R124): "Candidates with score 0 are discarded" (R115). -/
def workerCandidates (mode : SearchMode) (vault : List RawRecord) (keys : List Nat) : List Candidate :=
  keys.filterMap fun k =>
    let c : Candidate := ⟨BitVec.ofNat Config.wordBits k, score mode vault (BitVec.ofNat Config.wordBits k)⟩
    if c.score = 0 then none else some c

/-- `search(mode, T)` over the keys below `bound` (R120): the lists of all workers merged (R124); a worker that failed
contributed no candidates (R125). The list is one order of a set: the engine guarantees none (U7, log 15). -/
def searchBelow (bound : Nat) (mode : SearchMode) (vault : List RawRecord) (T : Nat) (failed : Nat → Bool) :
    Except SearchStop (List Candidate) :=
  if T = 0 then .error .noWorkers
  else match mode with
    | .known [] => .error .emptyKnownSet
    | _ =>
      .ok ((List.range T).flatMap fun i =>
        if failed i then [] else workerCandidates mode vault (workerKeys bound T i))

/-- The search of a validated vault over the whole candidate space `[0, 1_000_000_000)` (R120). -/
def search (mode : SearchMode) (vault : List RawRecord) (T : Nat) (failed : Nat → Bool) :
    Except SearchStop (List Candidate) :=
  searchBelow Config.keyspace mode vault T failed

/-- Why the engine's actions fail: the vault is rejected, or the search does not run. -/
inductive CrackError where
  /-- One of the four parse-time errors (R130). -/
  | invalidVault (e : ParseError)
  /-- The search itself does not run (R122, R123). -/
  | stopped (e : SearchStop)
  deriving DecidableEq, Repr

/-- The engine's way in (R129): bytes, validated before any key is tried, "mandatory and unconditional, never
skippable" (R130), and its error is the one reported where the search would not run either (DESIGN CHOICE, log 23). -/
def crackVault (p : CodecPolicy) (mode : SearchMode) (bytes : List Byte) (T : Nat) (failed : Nat → Bool) :
    Except CrackError (List Candidate) :=
  match loadVault p bytes with
  | .error e => .error (.invalidVault e)
  | .ok vault => (search mode vault T failed).mapError .stopped

/-- "in aggregate (count of failed workers)" (R125): what a faithful re-implementation reports beside the list. -/
def failedWorkers (T : Nat) (failed : Nat → Bool) : Nat := (List.range T).countP failed

/-! ## Presentation (R115, R127): "sorted by descending score before display" -/

/-- Put a candidate before the first one whose score is not above its own. DESIGN CHOICE (log 16): the source is silent
on equal scores; here the sort is stable, candidates of one score stay in the order they came. -/
def insertByScore (c : Candidate) : List Candidate → List Candidate
  | [] => [c]
  | d :: ds => if d.score ≤ c.score then c :: d :: ds else d :: insertByScore c ds

/-- "sorted descending by score downstream" (R115). -/
def sortByScore : List Candidate → List Candidate
  | [] => []
  | c :: cs => insertByScore c (sortByScore cs)

/-- The display line of R127, `<9-digit-right-padded master> [score=<n>]`: the decimal digits of the key, then `pad` up
to nine characters. Which character pads is not in the source, so it is a parameter (log 16). -/
def candidateLine (pad : Char) (c : Candidate) : String :=
  let digits := Nat.toDigits 10 c.master.toNat
  String.ofList (digits ++ List.replicate (9 - digits.length) pad ++ " [score=".toList
    ++ Nat.toDigits 10 c.score ++ [']'])

end Sys2Proof.Machine
end

