-- ==== Sys2Proof/Safety.lean ====
section
/-! DEFINITION. What a safe run is: the invariants of 10_state.md R24, reachability by steps from any list of events,
and the schedules a host that keeps its duties allows (70_reset_and_hazards.md R160). -/

namespace Sys2Proof.Machine

/-- R24, its nine clauses, each under a name and with its letter. -/
structure Block.Inv (blk : Block) : Prop where
  /-- (a) `BUSY` and `DONE` are never both 1. -/
  notBusyAndDone : ¬ (blk.busy = true ∧ blk.done = true)
  /-- (b) If `ERR != 0` then `BUSY = 0` and `DONE = 0`. -/
  faultedIsStopped : blk.err ≠ 0 → blk.busy = false ∧ blk.done = false
  /-- (c) If `BUSY = 1` then `OP` is one of 1 to 6. -/
  busyHasCommand : blk.busy = true → 1 ≤ blk.op.toNat ∧ blk.op.toNat ≤ 6
  /-- (d) If `BUSY = 1` and `OP` is 3 or 4 then `COUNT = 0`. -/
  maskCount : blk.busy = true → blk.op = 3 ∨ blk.op = 4 → blk.count = 0
  /-- (e) If `BUSY = 1` and `OP` is 5 or 6 then `COUNT <= 100`. -/
  slotCount : blk.busy = true → blk.op = 5 ∨ blk.op = 6 → blk.count.toNat ≤ 100
  /-- (f) If `BUSY = 1` and `OP = 1` then `COUNT <= 1`. -/
  advanceCount : blk.busy = true → blk.op = 1 → blk.count.toNat ≤ 1
  /-- (g) If `BUSY = 0` and `ERR = 0` then `COUNT = 0`. -/
  idleCount : blk.busy = false → blk.err = 0 → blk.count = 0
  /-- (h) `ERR` is one of 0, 1, 2, 3. -/
  errCode : blk.err.toNat ≤ 3
  /-- (i) `DONE = 1` implies `OP` is one of 1 to 6. -/
  doneHasCommand : blk.done = true → 1 ≤ blk.op.toNat ∧ blk.op.toNat ≤ 6

/-- The event leaves a command in progress alone: a read, a write that R100 ignores, or a tick. A `Reset` and a write
of index 0, 1 or 2 are what R69 and R160 rule out; `WAIT` is left to statements of its own, because it adds events. -/
def Event.quiet : Event → Bool
  | .reset => false
  | .hostRead _ => true
  | .hostWrite i _ => decide (3 ≤ i.toNat)
  | .tick _ => true
  | .wait _ => false

/-- The event is a `Tick`. -/
def Event.isTick : Event → Bool
  | .reset => false
  | .hostRead _ => false
  | .hostWrite _ _ => false
  | .tick _ => true
  | .wait _ => false

/-- How many events of a schedule are ticks. -/
def tickCount (es : List Event) : Nat := es.countP Event.isTick

/-- The machine with the schedule `es` before the events it already has to come. -/
def State.withSchedule (s : State) (es : List Event) : State := { s with events := es ++ s.events }

/-- `k` steps of the machine, stopping at the first fault or refusal; it is the host's `Host.Core.run` of this machine
(Laws/Step.lean, `run_eq_core_run`). -/
def run : Nat → State → Host.Outcome State Fault Refusal
  | 0, s => .next s
  | k + 1, s =>
    match step s with
    | .next s' => run k s'
    | .fault r => .fault r
    | .refused r => .refused r

/-- A state of some run from reset: any list of events may be to come at reset (R39). -/
def Reachable (s : State) : Prop :=
  ∃ es k, run k (State.reset.withSchedule es) = .next s

/-- From `t`, every schedule of quiet events with exactly `n` ticks in it, followed by one more tick, leaves the block
`final d`, with `d` the draw of that last tick; the events listed after the schedule are still to come, and `draws`
draws were taken. The reads and ignored writes of a schedule may fall anywhere (R39, R69). -/
def FinishesAfter (t : State) (n draws : Nat) (final : Draw → Block) : Prop :=
  ∀ (es : List Event) (r : Option Draw), (∀ e ∈ es, e.quiet = true) → tickCount es = n →
    ∃ u, run (es.length + 1) (t.withSchedule (es ++ [.tick r])) = .next u ∧
      u.block = final (drawValue r t.draws) ∧ u.events = t.events ∧ u.draws = t.draws + draws

/-- The host program `prog`, run from `s`, ends with the host having read `value`, the block Idle with `DONE = 1`, the
events listed after the program still to come, and `draws` draws taken (R103). -/
def HostObtains (s : State) (prog : List Event) (value : Word) (draws : Nat) : Prop :=
  ∃ k u, run k (s.withSchedule prog) = .next u ∧ u.events = s.events ∧ u.reads.head? = some value ∧
    u.block.Idle ∧ u.block.done = true ∧ u.draws = s.draws + draws

end Sys2Proof.Machine
end

