-- ==== Sys2Proof/Certificates/Slice0/Obligations.lean ====
section
/-! DEFINITION. The statements for the provers, from the numbered rules of spec/. -/

open Sys2Proof Sys2Proof.Machine

/-! ## The pure functions of the keystream generator (40_keystream.md) -/

/-- R61, with the shifts as R6 gives them in arithmetic: `shl32(v, k) = (v * 2^k) mod 2^32`,
`shr32(v, k) = floor(v / 2^k)`. -/
def Obligations.AdvanceIsThreeShiftXorStages : Prop :=
  (∀ s : Word, ∃ t1 t2 : Nat,
    t1 = s.toNat ^^^ (s.toNat * 2 ^ 13 % 2 ^ 32) ∧
    t2 = t1 ^^^ (t1 / 2 ^ 17) ∧
    (advance s).toNat = t2 ^^^ (t2 * 2 ^ 5 % 2 ^ 32)) ∧
  advance 0x00000001 = 0x00042021

/-- R62 (a), (b), (c). -/
def Obligations.AdvanceIsLinearBijection : Prop :=
  advance 0 = 0 ∧
  (∀ a b : Word, advance (a ^^^ b) = advance a ^^^ advance b) ∧
  Function.Bijective advance ∧
  (∀ s : Word, advance s = 0 ↔ s = 0)

/-- R63. -/
def Obligations.StreamAppliesAdvanceExactlySteps : Prop :=
  (∀ (seed : Word) (n : Nat), stream seed n = advance^[n] seed) ∧
  (∀ seed : Word, stream seed 0 = seed) ∧
  (∀ (seed : Word) (n : Nat), stream seed (n + 1) = advance (stream seed n)) ∧
  stream 0x00000001 1 = 0x00042021 ∧ stream 0x00000001 2 = 0x04080601 ∧ stream 0x00000001 3 = 0x9DCCA8C5

/-- R64, all five properties. -/
def Obligations.StreamComposesAndIsLinearBijection : Prop :=
  (∀ seed : Word, stream seed 1 = advance seed) ∧
  (∀ (seed : Word) (a b : Nat), stream seed (a + b) = stream (stream seed a) b) ∧
  (∀ n : Nat, stream 0 n = 0) ∧
  (∀ n : Nat, Function.Bijective (fun seed : Word => stream seed n) ∧
    (∀ x y : Word, stream (x ^^^ y) n = stream x n ^^^ stream y n) ∧
    (∀ seed : Word, stream seed n = 0 → seed = 0)) ∧
  (∀ seed : Word, stream seed 0 = seed)

/-! ## The pure functions of the cipher (41_cipher.md) -/

/-- R75, as the formula and bit by bit. -/
def Obligations.MaskInReplacesTopTwoBits : Prop :=
  (∀ (pin : Word) (r : Draw), maskIn pin r = (pin &&& 0x3FFFFFFF#32) ||| (r.zeroExtend 32 <<< 30)) ∧
  (∀ (pin : Word) (r : Draw) (i : Nat), i < 30 → (maskIn pin r).getLsbD i = pin.getLsbD i) ∧
  (∀ (pin : Word) (r : Draw), (maskIn pin r).getLsbD 31 = r.getLsbD 1 ∧ (maskIn pin r).getLsbD 30 = r.getLsbD 0) ∧
  maskIn 0x0000002A 2 = 0x8000002A

/-- R76. -/
def Obligations.MaskOutClearsTopTwoBits : Prop :=
  (∀ word : Word, maskOut word = word &&& 0x3FFFFFFF#32) ∧
  (∀ word : Word, (maskOut word).toNat < 2 ^ 30) ∧
  (∀ (pin : Word) (r : Draw), maskOut (maskIn pin r) = pin &&& 0x3FFFFFFF#32) ∧
  (∀ (pin : Word) (r : Draw), pin.toNat < 2 ^ 30 → maskOut (maskIn pin r) = pin) ∧
  maskOut 0xC000002A = 0x0000002A

/-- R77: the formula, and where the draw, the pin and the keystream land. -/
def Obligations.EncodeMasksThenXorsKeystream : Prop :=
  (∀ (m pin : Word) (id : Slot) (r : Draw),
    cipherEncode m id pin r = stream m (id.val + 1) ^^^ maskIn pin r ∧
    (∀ i < 30, (cipherEncode m id pin r).getLsbD i = (pin.getLsbD i ^^ (stream m (id.val + 1)).getLsbD i)) ∧
    (cipherEncode m id pin r).getLsbD 31 = (r.getLsbD 1 ^^ (stream m (id.val + 1)).getLsbD 31) ∧
    (cipherEncode m id pin r).getLsbD 30 = (r.getLsbD 0 ^^ (stream m (id.val + 1)).getLsbD 30)) ∧
  cipherEncode 123456789 7 42 0 = 0xDA4D7066

/-- R78: the formula and the bound. -/
def Obligations.DecodeUnmasksXorOfKeystream : Prop :=
  (∀ (m word : Word) (id : Slot), cipherDecode m id word = maskOut (stream m (id.val + 1) ^^^ word)) ∧
  (∀ (m word : Word) (id : Slot), (cipherDecode m id word).toNat < 2 ^ 30) ∧
  cipherDecode 123456789 7 0xDA4D7066 = 42

/-- R79: the round trip, what it gives for a pin of `2^30` or more, and the converse on the low bits. -/
def Obligations.DecodeOfEncodeGivesPinBack : Prop :=
  (∀ (m pin : Word) (id : Slot) (r : Draw), pin.toNat < 2 ^ 30 →
    cipherDecode m id (cipherEncode m id pin r) = pin) ∧
  (∀ (m pin : Word) (id : Slot) (r : Draw),
    cipherDecode m id (cipherEncode m id pin r) = pin &&& 0x3FFFFFFF#32) ∧
  (∀ (m word : Word) (id : Slot) (r : Draw) (i : Nat), i < 30 →
    (cipherEncode m id (cipherDecode m id word) r).getLsbD i = word.getLsbD i)

/-- R80: two encodings of one pin are equal exactly when their draws are; they differ in bits 31 and 30 only, and
decode alike. -/
def Obligations.EncodingsDifferExactlyAsTheirDraws : Prop :=
  ∀ (m pin : Word) (id : Slot) (r q : Draw),
    (cipherEncode m id pin r = cipherEncode m id pin q ↔ r = q) ∧
    (∀ i < 30, (cipherEncode m id pin r).getLsbD i = (cipherEncode m id pin q).getLsbD i) ∧
    cipherEncode m id pin r ^^^ cipherEncode m id pin q = (r ^^^ q).zeroExtend 32 <<< 30 ∧
    cipherDecode m id (cipherEncode m id pin r) = cipherDecode m id (cipherEncode m id pin q)

/-- R85, (a) to (f). -/
def Obligations.DecodedValuesObeyXorLaws : Prop :=
  (∀ (m w : Word) (i : Slot), cipherDecode m i w = cipherDecode m i (w ^^^ 0x40000000#32) ∧
    cipherDecode m i w = cipherDecode m i (w ^^^ 0x80000000#32)) ∧
  (∀ (m w1 w2 : Word) (i : Slot),
    cipherDecode m i w1 ^^^ cipherDecode m i w2 = (w1 ^^^ w2) &&& 0x3FFFFFFF#32) ∧
  (∀ (w : Word) (i : Slot), cipherDecode 0 i w = w &&& 0x3FFFFFFF#32) ∧
  (∀ (m : Word) (i : Nat), stream m (i + 2) = advance (stream m (i + 1))) ∧
  (∀ (m1 m2 : Word) (i : Slot), cipherDecode (m1 ^^^ m2) i 0 = cipherDecode m1 i 0 ^^^ cipherDecode m2 i 0) ∧
  (∀ (m w : Word) (i : Slot), 999999999 < (cipherDecode m i w).toNat ↔
    999999999 < ((stream m (i.val + 1) ^^^ w) &&& 0x3FFFFFFF#32).toNat) ∧
  ((Finset.range (2 ^ 30)).filter (fun v => 999999999 < v)).card = 73741824

/-! ## Encoding (30_encoding.md) -/

/-- Decoder and encoder agree, in both directions, with every operand at every value: a word decodes to a command
exactly when it is that command's word. -/
def Obligations.WordDecodesExactlyToWhatEncodesIt : Prop :=
  ∀ (c : Word) (i : Instr), decode c = some i ↔ encode i = c

/-- R48: each row's mask and match select exactly the words that decode to its command. -/
def Obligations.DecoderFollowsMaskMatchTable : Prop :=
  ∀ c : Word,
    (c &&& 0xFFFFFFFF#32 = 0x00000001#32 ↔ decode c = some .advance) ∧
    (c &&& 0xFFFF00FF#32 = 0x00000002#32 ↔ ∃ steps, decode c = some (.stream steps)) ∧
    (c &&& 0xFFFFFFFF#32 = 0x00000003#32 ↔ decode c = some .maskIn) ∧
    (c &&& 0xFFFFFFFF#32 = 0x00000004#32 ↔ decode c = some .maskOut) ∧
    (c &&& 0xFFFF00FF#32 = 0x00000005#32 ↔ ∃ id, decode c = some (.encode id)) ∧
    (c &&& 0xFFFF00FF#32 = 0x00000006#32 ↔ ∃ id, decode c = some (.decode id)) ∧
    (∀ i, decode c = some i → argField c = argOf i)

/-- R52, R49 and R50 on the value of the word, with the fields of R46 by division and remainder, and the count of
accepted words. -/
def Obligations.CommandWordsAreClassified : Prop :=
  (∀ c : Word,
    let z1 := c.toNat / 65536
    let arg := c.toNat / 256 % 256
    let z0 := c.toNat / 16 % 16
    let opc := c.toNat % 16
    (decodeCmd c = .illegalCommand ↔
      z1 ≠ 0 ∨ z0 ≠ 0 ∨ opc = 0 ∨ 7 ≤ opc ∨ ((opc = 1 ∨ opc = 3 ∨ opc = 4) ∧ arg ≠ 0)) ∧
    (decodeCmd c = .invalidSlot ↔ z1 = 0 ∧ z0 = 0 ∧ (opc = 5 ∨ opc = 6) ∧ 100 ≤ arg) ∧
    (∀ o n, decodeCmd c = .accept o n ↔ z1 = 0 ∧ z0 = 0 ∧ o.toNat = opc ∧
      ((opc = 1 ∧ arg = 0 ∧ n.toNat = 1) ∨ (opc = 2 ∧ n.toNat = arg) ∨
       ((opc = 3 ∨ opc = 4) ∧ arg = 0 ∧ n.toNat = 0) ∨
       ((opc = 5 ∨ opc = 6) ∧ arg ≤ 99 ∧ n.toNat = arg + 1)))) ∧
  {c : Word | ∃ o n, decodeCmd c = .accept o n}.ncard = 459

/-- R46: the fields make up the word, and a command's word has zero reserved fields. -/
def Obligations.CommandWordIsItsFields : Prop :=
  (∀ c : Word, c.toNat =
    (z1Field c).toNat * 65536 + (argField c).toNat * 256 + (z0Field c).toNat * 16 + (opcField c).toNat) ∧
  (∀ i : Instr, (encode i).toNat = (argOf i).toNat * 256 + (opcodeOf i).toNat)

/-- Words written out from R48, one of each row and two that are none. -/
def Obligations.SampleWordsDecode : Prop :=
  decode 0x00000001 = some .advance ∧ decode 0x00000802 = some (.stream 8) ∧
  decode 0x00000003 = some .maskIn ∧ decode 0x00000004 = some .maskOut ∧
  decode 0x00000705 = some (.encode 7) ∧ decode 0x00006306 = some (.decode 99) ∧
  decode 0x00000000 = none ∧ decode 0x00010005 = none

/-- R53: the words of the six mnemonic lines, and what the assembler refuses. -/
def Obligations.AssemblerEmitsCommandWords : Prop :=
  assemble .advance = some [.hostWrite 2 0x00000001] ∧
  assemble .maskIn = some [.hostWrite 2 0x00000003] ∧
  assemble .maskOut = some [.hostWrite 2 0x00000004] ∧
  (∀ n, assemble (.stream n) =
    if n ≤ 255 then some [.hostWrite 2 (BitVec.ofNat 32 (n * 256 + 2))] else none) ∧
  (∀ n, assemble (.encode n) =
    if n ≤ 99 then some [.hostWrite 2 (BitVec.ofNat 32 (n * 256 + 5))] else none) ∧
  (∀ n, assemble (.decode n) =
    if n ≤ 99 then some [.hostWrite 2 (BitVec.ofNat 32 (n * 256 + 6))] else none)

/-! ## Reset (10_state.md R25, 70_reset_and_hazards.md R156) -/

/-- R25, R156: whatever the state before, `Reset` makes every piece of the block's state 0, takes no draw, and reads
then return 0; the machine's reset state has that block. -/
def Obligations.ResetZeroesEveryPieceOfState : Prop :=
  (∀ (s : State) (rest : List Event), s.events = .reset :: rest →
    ∃ t, step s = .next t ∧ t.block.seed = 0 ∧ t.block.din = 0 ∧ t.block.dout = 0 ∧ t.block.lfsr = 0 ∧
      t.block.count = 0 ∧ t.block.op = 0 ∧ t.block.busy = false ∧ t.block.done = false ∧ t.block.err = 0 ∧
      (∀ i, readIndex t.block i = 0) ∧ t.events = rest ∧ t.reads = s.reads ∧ t.draws = s.draws) ∧
  State.reset.block = ⟨0, 0, 0, 0, 0, 0, false, false, 0⟩

/-! ## Reads (42_host_access.md R95) -/

/-- R95, R36: a read returns the value of its index in every state and changes nothing of the block. -/
def Obligations.ReadReturnsItsRegister : Prop :=
  ∀ (s : State) (i : RegIndex) (rest : List Event), s.events = .hostRead i :: rest →
    ∃ v, step s = .next { s with events := rest, reads := v :: s.reads } ∧
      (i = 0 → v = s.block.seed) ∧ (i = 1 → v = s.block.din) ∧ (i = 2 → v = 0) ∧
      (i = 3 → v = s.block.op.zeroExtend 32 * 256 + s.block.err.zeroExtend 32 * 16 +
        (if s.block.done then 2 else 0) + (if s.block.busy then 1 else 0)) ∧
      (i = 4 → v = s.block.dout) ∧ (i = 5 → v = s.block.lfsr) ∧
      (i = 6 → v = s.block.count.zeroExtend 32) ∧ (i = 7 → v = 0)

/-- R17: where each field stands in the word a read of index 3 returns, and that a write of it changes nothing. -/
def Obligations.StatusWordHasItsFields : Prop :=
  (∀ b : Block,
    (readIndex b 3).getLsbD 0 = b.busy ∧ (readIndex b 3).getLsbD 1 = b.done ∧
    (readIndex b 3).extractLsb' 2 2 = 0#2 ∧ (readIndex b 3).extractLsb' 4 4 = b.err ∧
    (readIndex b 3).extractLsb' 8 4 = b.op ∧ (readIndex b 3).extractLsb' 12 20 = 0#20) ∧
  (∀ (s : State) (v : Word) (rest : List Event), s.events = .hostWrite 3 v :: rest →
    step s = .next { s with events := rest })

/-! ## Writes (42_host_access.md R96 to R100, 60_exceptions.md R135 to R143) -/

/-- R96, R140, R100: the state decides first, the index second; no write changes anything beside the block. -/
def Obligations.WriteIsDecidedByStateThenIndex : Prop :=
  ∀ (s : State) (i : RegIndex) (v : Word) (rest : List Event), s.events = .hostWrite i v :: rest →
    ∃ b, step s = .next { s with block := b, events := rest } ∧
      (s.block.err ≠ 0 → b = s.block) ∧
      (3 ≤ i.toNat → b = s.block) ∧
      (s.block.err = 0 → i.toNat ≤ 2 → s.block.busy = true →
        b = { s.block with err := 3, busy := false, done := false }) ∧
      (s.block.Idle → i = 0 → b = { s.block with seed := v }) ∧
      (s.block.Idle → i = 1 → b = { s.block with din := v }) ∧
      (s.block.Idle → i = 2 →
        (decodeCmd v = .illegalCommand → b = { s.block with err := 1, busy := false, done := false }) ∧
        (decodeCmd v = .invalidSlot → b = { s.block with err := 2, busy := false, done := false }) ∧
        (∀ opc n, decodeCmd v = .accept opc n →
          b = { s.block with
            op := opc, count := n, busy := true, done := false
            lfsr := if opc = 1 ∨ opc = 2 ∨ opc = 5 ∨ opc = 6 then s.block.seed else s.block.lfsr }))

/-- R97, R98: a write of `SEED` or `DIN` stores any 32-bit value when Idle, reads back, and does nothing else; it is
`BusyWrite` while a command is in progress and ignored when Faulted. -/
def Obligations.OperandWriteStoresAndReadsBack : Prop :=
  ∀ (s : State) (v : Word),
    (s.block.Idle →
      (∃ t, performEvent (.hostWrite 0 v) s = .next t ∧ t = { s with block := { s.block with seed := v } } ∧
        readIndex t.block 0 = v) ∧
      (∃ t, performEvent (.hostWrite 1 v) s = .next t ∧ t = { s with block := { s.block with din := v } } ∧
        readIndex t.block 1 = v)) ∧
    (s.block.err = 0 → s.block.busy = true → ∀ i : RegIndex, i = 0 ∨ i = 1 →
      performEvent (.hostWrite i v) s =
        .next { s with block := { s.block with err := 3, busy := false, done := false } }) ∧
    (s.block.Faulted → ∀ i : RegIndex, i = 0 ∨ i = 1 → performEvent (.hostWrite i v) s = .next s)

/-- R137, R138: which command words raise `IllegalCommand` and `InvalidSlot` on an Idle block, on the value of the
word, and that the other registers keep their values; the worked examples of both rules. -/
def Obligations.BadCommandWordRaisesItsFault : Prop :=
  (∀ (s : State) (c : Word), s.block.Idle →
    let z1 := c.toNat / 65536
    let arg := c.toNat / 256 % 256
    let z0 := c.toNat / 16 % 16
    let opc := c.toNat % 16
    (z1 ≠ 0 ∨ z0 ≠ 0 ∨ opc = 0 ∨ 7 ≤ opc ∨ ((opc = 1 ∨ opc = 3 ∨ opc = 4) ∧ arg ≠ 0) →
      performEvent (.hostWrite 2 c) s =
        .next { s with block := { s.block with err := 1, busy := false, done := false } }) ∧
    (z1 = 0 → z0 = 0 → opc = 5 ∨ opc = 6 → 99 < arg →
      performEvent (.hostWrite 2 c) s =
        .next { s with block := { s.block with err := 2, busy := false, done := false } })) ∧
  (∃ t, performEvent (.hostWrite 2 0x00000000) State.reset = .next t ∧ readIndex t.block 3 = 0x00000010) ∧
  (∃ t, performEvent (.hostWrite 2 0x00006405) State.reset = .next t ∧ readIndex t.block 3 = 0x00000020) ∧
  (∃ t, performEvent (.hostWrite 2 0x00006305) State.reset = .next t ∧ t.block.busy = true ∧ t.block.err = 0)

/-- R139: `BusyWrite`, whatever the word: the write is not performed, the command is cut short, and `LFSR` and `COUNT`
stay as the ticks left them, so that no later tick does anything; the worked example. -/
def Obligations.BusyWriteCutsCommandShort : Prop :=
  (∀ (s : State) (i : RegIndex) (v : Word), s.block.err = 0 → s.block.busy = true → i.toNat ≤ 2 →
    ∃ t, performEvent (.hostWrite i v) s = .next t ∧
      t = { s with block := { s.block with err := 3, busy := false, done := false } } ∧
      ∀ r, performEvent (.tick r) t = .next t) ∧
  (∃ t, run 4 (State.reset.withSchedule
      [.hostWrite 0 1, .hostWrite 2 0x00000302, .tick none, .hostWrite 1 5]) = .next t ∧
    readIndex t.block 3 = 0x00000230 ∧ t.block.din = 0 ∧ t.block.lfsr = 0x00042021 ∧ t.block.count = 2 ∧
    t.block.dout = 0)

/-- R141, R135, R136: whatever the event, if a step takes `ERR` from 0 to something else, the event is a host write,
the code is 1, 2 or 3, `BUSY` and `DONE` are cleared, and nothing else of the block changes. -/
def Obligations.FaultEntryWritesOnlyErrBusyDone : Prop :=
  ∀ s t : State, step s = .next t → s.block.err = 0 → t.block.err ≠ 0 →
    (∃ i v, nextEvent s = .hostWrite i v) ∧
    (t.block.err = 1 ∨ t.block.err = 2 ∨ t.block.err = 3) ∧
    t.block = { s.block with err := t.block.err, busy := false, done := false }

/-- R142, R143, R20: a Faulted block does not change until `Reset`, reads go on working, and `Reset` clears it. -/
def Obligations.FaultedBlockIsFrozenUntilReset : Prop :=
  ∀ s : State, s.block.Inv → s.block.Faulted →
    (nextEvent s ≠ .reset → ∃ t, step s = .next t ∧ t.block = s.block ∧
      (∀ i, nextEvent s = .hostRead i → t.reads = readIndex s.block i :: s.reads)) ∧
    (nextEvent s = .reset → ∃ t, step s = .next t ∧ t.block = State.reset.block)

/-! ## The sequencer (40_keystream.md R65, R66) -/

/-- R65: the advancing tick, and no step where `BUSY = 0`. -/
def Obligations.AdvancingTickStepsLfsrAndCount : Prop :=
  ∀ (s : State) (r : Option Draw),
    (s.block.busy = true → s.block.count ≠ 0 →
      performEvent (.tick r) s =
        .next { s with block := { s.block with lfsr := advance s.block.lfsr, count := s.block.count - 1 } }) ∧
    (s.block.busy = false → performEvent (.tick r) s = .next s)

/-- R66: the finalisation tick, with the draw the tick names or the free value; it holds for every value of the draw
counter and of the free value (log 3). -/
def Obligations.FinalisationTickWritesResult : Prop :=
  ∀ (s : State) (r : Option Draw), s.block.busy = true → s.block.count = 0 →
    1 ≤ s.block.op.toNat → s.block.op.toNat ≤ 6 →
    ∃ v, performEvent (.tick r) s = .next { s with
        block := { s.block with dout := v, busy := false, done := true }
        draws := if s.block.op = 3 ∨ s.block.op = 5 then s.draws + 1 else s.draws } ∧
      (s.block.op = 1 ∨ s.block.op = 2 → v = s.block.lfsr) ∧
      (s.block.op = 3 →
        v = (s.block.din &&& 0x3FFFFFFF#32) ||| ((r.getD (Config.draw2 s.draws)).zeroExtend 32 <<< 30)) ∧
      (s.block.op = 4 → v = s.block.din &&& 0x3FFFFFFF#32) ∧
      (s.block.op = 5 →
        v = s.block.lfsr ^^^
          ((s.block.din &&& 0x3FFFFFFF#32) ||| ((r.getD (Config.draw2 s.draws)).zeroExtend 32 <<< 30))) ∧
      (s.block.op = 6 → v = (s.block.lfsr ^^^ s.block.din) &&& 0x3FFFFFFF#32)

/-- R22: a step takes a draw exactly when it is the finalisation tick of a `MASK_IN` or an `ENCODE`, and then one. -/
def Obligations.DrawTakenOnlyAtMaskInAndEncodeEnd : Prop :=
  ∀ s t : State, step s = .next t →
    t.draws = s.draws +
      (if (∃ r, nextEvent s = .tick r) ∧ s.block.busy = true ∧ s.block.count = 0 ∧
          (s.block.op = 3 ∨ s.block.op = 5) then 1 else 0)

/-! ## The six commands: each completes, from every Idle block, under every schedule of its ticks -/

/-- The step that runs a command: when the next event is the write of a word to `CMD` and the word decodes to `i`, the
step is `exec i` on the machine with that event taken off the list. The last clause is the model's own: where no event
is listed, a step is a tick (log 2). -/
def Obligations.StepRunsDecodedCommand : Prop :=
  (∀ (s : State) (c : Word) (i : Instr) (rest : List Event),
    s.events = .hostWrite 2 c :: rest → decode c = some i → step s = exec i { s with events := rest }) ∧
  (∀ (s : State) (w : Nat) (i : Instr), decodeTableWord 32 w = some i → step (s.withFetchWord 32 w) = exec i s) ∧
  (∀ s : State, s.events = [] → step s = performEvent (.tick none) s)

/-- R67: `ADVANCE`. -/
def Obligations.AdvanceCompletesWithAdvanceOfSeed : Prop :=
  ∀ s : State, s.block.Idle →
    ∃ t, exec .advance s = .next t ∧
      t = { s with block := { s.block with
        op := 1, count := 1, lfsr := s.block.seed, busy := true, done := false } } ∧
      FinishesAfter t 1 0 fun _ => { s.block with
        op := 1, count := 0, lfsr := advance s.block.seed, dout := advance s.block.seed
        busy := false, done := true }

/-- R68: `STREAM steps`, every step count from 0 to 255. -/
def Obligations.StreamCompletesWithStreamOfSeed : Prop :=
  ∀ (s : State) (steps : Count), s.block.Idle →
    ∃ t, exec (.stream steps) s = .next t ∧
      t = { s with block := { s.block with
        op := 2, count := steps, lfsr := s.block.seed, busy := true, done := false } } ∧
      FinishesAfter t steps.toNat 0 fun _ => { s.block with
        op := 2, count := 0, lfsr := stream s.block.seed steps.toNat, dout := stream s.block.seed steps.toNat
        busy := false, done := true }

/-- R81: `MASK_IN`; it holds for every value of the draw. -/
def Obligations.MaskInCompletesWithMaskedDin : Prop :=
  ∀ s : State, s.block.Idle →
    ∃ t, exec .maskIn s = .next t ∧
      t = { s with block := { s.block with op := 3, count := 0, busy := true, done := false } } ∧
      FinishesAfter t 0 1 fun d => { s.block with
        op := 3, count := 0, dout := maskIn s.block.din d, busy := false, done := true }

/-- R82: `MASK_OUT`. -/
def Obligations.MaskOutCompletesWithUnmaskedDin : Prop :=
  ∀ s : State, s.block.Idle →
    ∃ t, exec .maskOut s = .next t ∧
      t = { s with block := { s.block with op := 4, count := 0, busy := true, done := false } } ∧
      FinishesAfter t 0 0 fun _ => { s.block with
        op := 4, count := 0, dout := maskOut s.block.din, busy := false, done := true }

/-- R83: `ENCODE id` for every slot; it holds for every value of the draw. -/
def Obligations.EncodeCompletesWithCiphertext : Prop :=
  ∀ (s : State) (id : Slot), s.block.Idle →
    ∃ t, exec (.encode (BitVec.ofNat 8 id.val)) s = .next t ∧
      t = { s with block := { s.block with
        op := 5, count := BitVec.ofNat 8 (id.val + 1), lfsr := s.block.seed, busy := true, done := false } } ∧
      FinishesAfter t (id.val + 1) 1 fun d => { s.block with
        op := 5, count := 0, lfsr := stream s.block.seed (id.val + 1)
        dout := cipherEncode s.block.seed id s.block.din d
        busy := false, done := true }

/-- R84: `DECODE id` for every slot. -/
def Obligations.DecodeCompletesWithPlaintext : Prop :=
  ∀ (s : State) (id : Slot), s.block.Idle →
    ∃ t, exec (.decode (BitVec.ofNat 8 id.val)) s = .next t ∧
      t = { s with block := { s.block with
        op := 6, count := BitVec.ofNat 8 (id.val + 1), lfsr := s.block.seed, busy := true, done := false } } ∧
      FinishesAfter t (id.val + 1) 0 fun _ => { s.block with
        op := 6, count := 0, lfsr := stream s.block.seed (id.val + 1)
        dout := cipherDecode s.block.seed id s.block.din
        busy := false, done := true }

/-- Where a command does not run: it is ignored when Faulted, `BusyWrite` while another is in progress, and
`InvalidSlot` when its slot id is above 99; of the six only `ENCODE` and `DECODE` can be the last. -/
def Obligations.CommandIsTurnedAwayByFaultBusyOrSlot : Prop :=
  ∀ (i : Instr) (s : State),
    (s.block.Faulted → exec i s = .next s) ∧
    (s.block.err = 0 → s.block.busy = true →
      exec i s = .next { s with block := { s.block with err := 3, busy := false, done := false } }) ∧
    (s.block.Idle → i.wellFormed = false →
      exec i s = .next { s with block := { s.block with err := 2, busy := false, done := false } }) ∧
    (i.wellFormed = false ↔ ∃ id : Count, 99 < id.toNat ∧ (i = .encode id ∨ i = .decode id))

/-- The frame of all six commands, in every state: executing one changes neither operand nor `DOUT`, nor anything
beside the block; `OP`, `COUNT` and `LFSR` change only where the command is accepted, `ERR` only where it is not, and
`LFSR` never for `MASK_IN` and `MASK_OUT`. -/
def Obligations.CommandFrame : Prop :=
  ∀ (i : Instr) (s t : State), exec i s = .next t →
    t.block.seed = s.block.seed ∧ t.block.din = s.block.din ∧ t.block.dout = s.block.dout ∧
    t.events = s.events ∧ t.reads = s.reads ∧ t.draws = s.draws ∧
    (¬ s.block.Idle ∨ i.wellFormed = false →
      t.block.op = s.block.op ∧ t.block.count = s.block.count ∧ t.block.lfsr = s.block.lfsr) ∧
    (s.block.Idle → i.wellFormed = true → t.block.err = s.block.err) ∧
    (i = .maskIn ∨ i = .maskOut → t.block.lfsr = s.block.lfsr)

/-! ## Whole commands through the host's interface -/

/-- R69, both halves, with the draw of the last tick the value the tick names or the free value (log 3): under
any schedule of the ticks and of the host's reads and ignored writes, exactly `n + 1` ticks
lead from the accepted write to `DONE = 1` with the function's value in `DOUT`, and after `k <= n` of them the command
is still in progress with `LFSR = stream(SEED, k)` and `COUNT = n - k`. -/
def Obligations.AcceptedCommandComputesItsFunction : Prop :=
  ∀ (s : State) (c : Word) (opc : Opcode) (n : Count) (es rest : List Event),
    s.block.Idle → decodeCmd c = .accept opc n → (∀ e ∈ es, e.quiet = true) →
    (∀ r : Option Draw, tickCount es = n.toNat → s.events = .hostWrite 2 c :: (es ++ .tick r :: rest) →
      ∃ u, run (es.length + 2) s = .next u ∧ u.events = rest ∧
        u.block.busy = false ∧ u.block.done = true ∧ u.block.err = 0 ∧ u.block.count = 0 ∧
        u.block.op = opc ∧ u.block.seed = s.block.seed ∧ u.block.din = s.block.din ∧
        (opc = 1 ∨ opc = 2 ∨ opc = 5 ∨ opc = 6 → u.block.lfsr = stream s.block.seed n.toNat) ∧
        (opc = 3 ∨ opc = 4 → u.block.lfsr = s.block.lfsr) ∧
        (opc = 1 ∨ opc = 2 → u.block.dout = stream s.block.seed n.toNat) ∧
        (opc = 3 → u.block.dout = maskIn s.block.din (r.getD (Config.draw2 s.draws))) ∧
        (opc = 4 → u.block.dout = maskOut s.block.din) ∧
        (opc = 5 → ∃ id : Slot, id.val + 1 = n.toNat ∧
          u.block.dout = cipherEncode s.block.seed id s.block.din (r.getD (Config.draw2 s.draws))) ∧
        (opc = 6 → ∃ id : Slot, id.val + 1 = n.toNat ∧
          u.block.dout = cipherDecode s.block.seed id s.block.din)) ∧
    (tickCount es ≤ n.toNat → s.events = .hostWrite 2 c :: (es ++ rest) →
      ∃ u, run (es.length + 1) s = .next u ∧ u.events = rest ∧
        u.block.busy = true ∧ u.block.done = false ∧ u.block.op = opc ∧ u.block.dout = s.block.dout ∧
        u.block.count.toNat = n.toNat - tickCount es ∧
        (opc = 1 ∨ opc = 2 ∨ opc = 5 ∨ opc = 6 → u.block.lfsr = stream s.block.seed (tickCount es)))

/-- R41: a command's result is a function of `SEED`, `DIN` and the command word at acceptance, and of the one draw:
two Idle machines that agree on those, and may differ in everything else and in their schedules, end with one `DOUT`. -/
def Obligations.ResultDependsOnlyOnOperandsAndDraw : Prop :=
  ∀ (s₁ s₂ u₁ u₂ : State) (c : Word) (opc : Opcode) (n : Count) (r : Draw) (es₁ es₂ rest₁ rest₂ : List Event),
    s₁.block.Idle → s₂.block.Idle → s₁.block.seed = s₂.block.seed → s₁.block.din = s₂.block.din →
    decodeCmd c = .accept opc n →
    (∀ e ∈ es₁, e.quiet = true) → (∀ e ∈ es₂, e.quiet = true) →
    tickCount es₁ = n.toNat → tickCount es₂ = n.toNat →
    s₁.events = .hostWrite 2 c :: (es₁ ++ .tick (some r) :: rest₁) →
    s₂.events = .hostWrite 2 c :: (es₂ ++ .tick (some r) :: rest₂) →
    run (es₁.length + 2) s₁ = .next u₁ → run (es₂.length + 2) s₂ = .next u₂ →
    u₁.block.dout = u₂.block.dout

/-- R103: from an Idle block, each of the six `CALL_` programs of R54 ends with the host having read the value of the
source's function, whatever the ticks inside its `WAIT` (log 5; none outside it, log 21). For `MASK_IN` and `ENCODE` the draw is the free value
of the draw counter, of which nothing is assumed (log 3). -/
def Obligations.HostCallReturnsFunctionValue : Prop :=
  ∀ (s : State) (gaps : List Nat), s.block.Idle →
    (∀ x, HostObtains s (callAdvance gaps x) (advance x) 0) ∧
    (∀ x n, HostObtains s (callStream gaps x n) (stream x n.toNat) 0) ∧
    (∀ p, HostObtains s (callMaskIn gaps p) (maskIn p (Config.draw2 s.draws)) 1) ∧
    (∀ w, HostObtains s (callMaskOut gaps w) (maskOut w) 0) ∧
    (∀ m i p, HostObtains s (callEncode gaps m i p) (cipherEncode m i p (Config.draw2 s.draws)) 1) ∧
    (∀ m i w, HostObtains s (callDecode gaps m i w) (cipherDecode m i w) 0)

/-- R101, with the ticks inside the loop as the model schedules them (log 5): a turn of
`WAIT` reads `STATUS` and changes no state of the block; the loop ends exactly when the read sees
`DONE = 1` or `ERR != 0`; after an accepted command it ends with `DONE = 1`; started Idle with `DONE = 0` and nothing
else to come, it never ends. -/
def Obligations.WaitEndsWithDoneOrFaultOnly : Prop :=
  (∀ (s : State) (gaps : List Nat) (rest : List Event), s.events = .wait gaps :: rest →
    ∃ t, step s = .next t ∧ t.block = s.block ∧ t.draws = s.draws ∧ t.reads = readIndex s.block 3 :: s.reads ∧
      (t.events = rest ↔ s.block.done = true ∨ s.block.err ≠ 0)) ∧
  (∀ (s : State) (gaps : List Nat) (rest : List Event), s.block.Inv → s.block.busy = true →
    s.events = .wait gaps :: rest →
    ∃ k u, run k s = .next u ∧ u.events = rest ∧ u.block.done = true ∧ u.block.err = 0) ∧
  (∀ (s : State) (gaps : List Nat), s.block.Idle → s.block.done = false → s.events = [.wait gaps] →
    ∀ k, ∃ u, run k s = .next u ∧ u.block = s.block ∧ ∃ g, Event.wait g ∈ u.events)

/-- R166, with weak fairness as the model has it (log 2): with no event of the host to come, a command in progress
finishes after exactly `COUNT + 1` steps. -/
def Obligations.BusyBlockFinishesInCountPlusOneSteps : Prop :=
  ∀ s : State, s.block.Inv → s.block.busy = true → s.events = [] →
    (∃ u, run (s.block.count.toNat + 1) s = .next u ∧ u.block.busy = false ∧ u.block.done = true ∧
      u.block.op = s.block.op ∧ u.events = []) ∧
    (∀ k ≤ s.block.count.toNat, ∃ u, run k s = .next u ∧ u.block.busy = true ∧ u.block.done = false)

/-- R39 (c): once `DONE = 1`, `DOUT` keeps the command's result as long as the host writes no command and there is no
`Reset`, whatever else it does. -/
def Obligations.ResultStaysWhileNoCommandIsWritten : Prop :=
  ∀ (s : State) (es rest : List Event), s.block.Inv → s.block.done = true → s.events = es ++ rest →
    (∀ e ∈ es, e ≠ .reset ∧ (∀ v, e ≠ .hostWrite 2 v) ∧ (∀ g, e ≠ .wait g)) →
    ∃ u, run es.length s = .next u ∧ u.events = rest ∧ u.block.dout = s.block.dout ∧ u.block.done = true

/-! ## Who changes what, over all events (10_state.md) -/

/-- R11 to R16: the events that may change each register. -/
def Obligations.EachRegisterHasItsWriters : Prop :=
  ∀ s t : State, step s = .next t → nextEvent s ≠ .reset →
    (t.block.seed ≠ s.block.seed → s.block.Idle ∧ nextEvent s = .hostWrite 0 t.block.seed) ∧
    (t.block.din ≠ s.block.din → s.block.Idle ∧ nextEvent s = .hostWrite 1 t.block.din) ∧
    (t.block.dout ≠ s.block.dout →
      (∃ r, nextEvent s = .tick r) ∧ s.block.busy = true ∧ s.block.count = 0) ∧
    (t.block.lfsr ≠ s.block.lfsr ∨ t.block.count ≠ s.block.count →
      ((∃ r, nextEvent s = .tick r) ∧ s.block.busy = true ∧ s.block.count ≠ 0) ∨
      (s.block.Idle ∧ ∃ c opc n, nextEvent s = .hostWrite 2 c ∧ decodeCmd c = .accept opc n)) ∧
    (t.block.op ≠ s.block.op →
      s.block.Idle ∧ ∃ c n, nextEvent s = .hostWrite 2 c ∧ decodeCmd c = .accept t.block.op n)

/-- R18, R19: acceptance sets `BUSY` and finalisation, `BusyWrite` and `Reset` clear it; finalisation sets `DONE` and
acceptance, faults and `Reset` clear it; nothing else changes either; and the sequencer has a step exactly when
`BUSY = 1`, where `ERR = 0` in every state that meets R24. -/
def Obligations.BusyAndDoneHaveTheirWriters : Prop :=
  (∀ s t : State, step s = .next t →
    (s.block.busy = false → t.block.busy = true →
      s.block.Idle ∧ ∃ c opc n, nextEvent s = .hostWrite 2 c ∧ decodeCmd c = .accept opc n) ∧
    (s.block.busy = true → t.block.busy = false →
      ((∃ r, nextEvent s = .tick r) ∧ s.block.count = 0) ∨
      ((∃ i v, nextEvent s = .hostWrite i v ∧ i.toNat ≤ 2) ∧ t.block.err = 3) ∨ nextEvent s = .reset) ∧
    (s.block.done = false → t.block.done = true →
      (∃ r, nextEvent s = .tick r) ∧ s.block.busy = true ∧ s.block.count = 0) ∧
    (s.block.done = true → t.block.done = false →
      (s.block.Idle ∧ ∃ c opc n, nextEvent s = .hostWrite 2 c ∧ decodeCmd c = .accept opc n) ∨
      (s.block.err = 0 ∧ t.block.err ≠ 0) ∨ nextEvent s = .reset)) ∧
  (∀ (s : State) (r : Option Draw), performEvent (.tick r) s = .next s ↔ s.block.busy = false) ∧
  (∀ b : Block, b.Inv → b.busy = true → b.err = 0)

/-! ## Invariants and safety -/

/-- R24 holds right after reset. -/
def Obligations.ResetMeetsRegisterInvariants : Prop := State.reset.block.Inv

/-- R24 is kept by every step, from every state that meets it, whatever the event. -/
def Obligations.StepKeepsRegisterInvariants : Prop :=
  ∀ s t : State, s.block.Inv → step s = .next t → t.block.Inv

/-- R24, over every state some run from reset reaches under some list of events, and its last sentence. -/
def Obligations.ReachableStatesMeetRegisterInvariants : Prop :=
  (∀ s : State, Reachable s → s.block.Inv) ∧
  (∃ s : State, Reachable s ∧ s.block.err = 3 ∧ s.block.count ≠ 0)

/-- R8: every event has an outcome in every state that meets R24: the machine never stops; and executing a command
never stops it, in any state. -/
def Obligations.MachineNeverStops : Prop :=
  (∀ s : State, s.block.Inv → ∃ t, step s = .next t) ∧
  (∀ (i : Instr) (s : State), ∃ t, exec i s = .next t)

/-! ## Host software, outside the block (43_vault_software.md, 20_memory.md R35) -/

/-- R35: a ciphertext word in the vault file is big-endian, both ways. -/
def Obligations.CiphertextWordIsBigEndian : Prop :=
  (∀ w : Word, ∃ a b c d : Byte, wordToBytes w = [a, b, c, d] ∧ bytesToWord a b c d = w ∧
    a = w.extractLsb' 24 8 ∧ b = w.extractLsb' 16 8 ∧ c = w.extractLsb' 8 8 ∧ d = w.extractLsb' 0 8) ∧
  (∀ a b c d : Byte, wordToBytes (bytesToWord a b c d) = [a, b, c, d]) ∧
  wordToBytes 0xDA4D7066 = [0xDA, 0x4D, 0x70, 0x66]

/-- R117: under every policy for what the source leaves open (log 12), and with the id checks made on the declared
records that are wholly present (log 13) and the accepted ones in file order (log 24), the reported error is one whose check fails; a
buffer none of whose checks fails and that has no byte too many is accepted; and an accepted buffer has as many
records as its count byte says, at most 100, with distinct slots, each at its place. -/
def Obligations.ParseAcceptsExactlyValidVaults : Prop :=
  ∀ (p : CodecPolicy),
    parse p [] = .error .emptyInput ∧
    ∀ (n : Byte) (rest : List Byte),
      (∀ e, parse p (n :: rest) = .error e →
        (e = .truncatedInput ∧ rest.length < 5 * n.toNat) ∨
        (e = .invalidSlot ∧ ∃ k < n.toNat, 5 * k + 5 ≤ rest.length ∧ 99 < (rest.getD (5 * k) 0).toNat) ∨
        (e = .duplicateSlot ∧ ∃ j k, j < k ∧ k < n.toNat ∧ 5 * k + 5 ≤ rest.length ∧
          rest.getD (5 * j) 0 = rest.getD (5 * k) 0) ∨
        (p.trailing = some e ∧ 5 * n.toNat < rest.length)) ∧
      (rest.length = 5 * n.toNat → (∀ k < n.toNat, (rest.getD (5 * k) 0).toNat ≤ 99) →
        (∀ j k, j < k → k < n.toNat → rest.getD (5 * j) 0 ≠ rest.getD (5 * k) 0) →
        ∃ rs, parse p (n :: rest) = .ok rs) ∧
      (∀ rs, parse p (n :: rest) = .ok rs →
        rs.length = n.toNat ∧ n.toNat ≤ 100 ∧ (rs.map (·.slot)).Nodup ∧ 5 * n.toNat ≤ rest.length ∧
        ∀ (k : Nat) (r : RawRecord), rs[k]? = some r →
          r.slot.val = (rest.getD (5 * k) 0).toNat ∧
          r.word = bytesToWord (rest.getD (5 * k + 1) 0) (rest.getD (5 * k + 2) 0)
            (rest.getD (5 * k + 3) 0) (rest.getD (5 * k + 4) 0))

/-- R118, R79, R116: saving pins of distinct slots and parsing the file gives the pins back under the same key, less the
zero pins, whatever the draws and under every policy of `parse`. -/
def Obligations.SavedVaultOpensToItsPins : Prop :=
  ∀ (p : CodecPolicy) (master : Word) (draws : Nat → Draw) (rs : List PinRecord),
    (rs.map (·.slot)).Nodup → (∀ r ∈ rs, r.pin.toNat < 2 ^ 30) →
    (parse p (saveVault master draws rs)).map (openRecords master) = .ok (rs.filter (fun r => r.pin != 0))

/-- R114, R118, R79, for pins of every value: whatever the key, the draws and the policy of `parse`, a saved vault decodes
to no zero pin; its records are those saved whose pin has low 30 bits other than 0, in order, with bits 31 and 30 of
the pin lost. -/
def Obligations.SavingNeverPersistsZeroPin : Prop :=
  ∀ (p : CodecPolicy) (master : Word) (draws : Nat → Draw) (rs : List PinRecord),
    (rs.map (·.slot)).Nodup →
    ∃ saved : List RawRecord, parse p (saveVault master draws rs) = .ok saved ∧
      (∀ r ∈ saved, cipherDecode master r.slot r.word ≠ 0) ∧
      saved.map (fun r => (r.slot, cipherDecode master r.slot r.word)) =
        (rs.filter (fun r => r.pin &&& 0x3FFFFFFF#32 != 0)).map (fun r => (r.slot, r.pin &&& 0x3FFFFFFF#32))

/-- R130, R131, R114, R129: a vault that `parse` rejects stops the editor and the engine with that error, whatever the
key, mode and workers (even where the search would not run either: the model's choice, log 23); a vault it accepts has distinct slots, and both then work on exactly its records, sorted by
slot, none of them dropped. -/
def Obligations.RejectedVaultStopsEditorAndEngine : Prop :=
  ∀ (p : CodecPolicy) (bytes : List Byte),
    (∀ e, parse p bytes = .error e →
      (∀ master, openVault p master bytes = .error e) ∧
      (∀ mode T failed, crackVault p mode bytes T failed = .error (.invalidVault e))) ∧
    (∀ rs, parse p bytes = .ok rs → (rs.map (·.slot)).Nodup ∧
      ∃ vault : List RawRecord, vault.Perm rs ∧ vault.Pairwise (fun a b => a.slot < b.slot) ∧
        (∀ master, openVault p master bytes =
          .ok (vault.map fun r => ⟨r.slot, cipherDecode master r.slot r.word⟩)) ∧
        (∀ mode T failed cs, search mode vault T failed = .ok cs → crackVault p mode bytes T failed = .ok cs) ∧
        (∀ mode T failed e, search mode vault T failed = .error e →
          crackVault p mode bytes T failed = .error (.stopped e)))

/-- R123: the strided subsequences of the workers are the whole space, with no duplicate. -/
def Obligations.WorkerStridesPartitionKeySpace : Prop :=
  ∀ bound T : Nat, 1 ≤ T →
    ((List.range T).flatMap (workerKeys bound T)).Perm (List.range bound) ∧
    ∀ i < T, ∀ k, k ∈ workerKeys bound T i ↔ k < bound ∧ k % T = i

/-- R121, R122: one decode above 999999999 makes the score 0; else the score counts the records whose decode is one
of the mode's values. -/
def Obligations.ImplausibleDecodeZeroesScore : Prop :=
  ∀ (mode : SearchMode) (vault : List RawRecord) (key : Word),
    ((∃ r ∈ vault, 999999999 < (cipherDecode key r.slot r.word).toNat) → score mode vault key = 0) ∧
    ((∀ r ∈ vault, (cipherDecode key r.slot r.word).toNat ≤ 999999999) →
      score mode vault key = vault.countP fun r => mode.interesting.contains (cipherDecode key r.slot r.word))

/-- R120, R122, R124, R125, R115: the candidates are exactly the keys below 10^9 of the workers that did not fail, with
their scores, where the score is not 0; and a known-plaintext search needs a plaintext. -/
def Obligations.SearchReturnsEveryScoringKey : Prop :=
  ∀ (mode : SearchMode) (vault : List RawRecord) (T : Nat) (failed : Nat → Bool), 1 ≤ T →
    (mode = .known [] → search mode vault T failed = .error .emptyKnownSet) ∧
    (mode ≠ .known [] → ∃ cs, search mode vault T failed = .ok cs ∧
      ∀ c : Candidate, c ∈ cs ↔ c.master.toNat < 1000000000 ∧ failed (c.master.toNat % T) = false ∧
        c.score = score mode vault c.master ∧ c.score ≠ 0)

/-- R132: the source's scenario, for every draw of the encoding and every weak set without 42. -/
def Obligations.ScenarioKeyIsFoundInKnownModeOnly : Prop :=
  ∀ (r : Draw) (weak : List Word), 42 ∉ weak →
    cipherDecode 123456789 7 (cipherEncode 123456789 7 42 r) = 42 ∧
    (∃ cs, search (.known [42]) [⟨7, cipherEncode 123456789 7 42 r⟩] 1 (fun _ => false) = .ok cs ∧
      ⟨123456789, 1⟩ ∈ cs) ∧
    (∃ cs, search (.heuristic weak) [⟨7, cipherEncode 123456789 7 42 r⟩] 1 (fun _ => false) = .ok cs ∧
      ∀ c ∈ cs, c.master ≠ 123456789)
end

