-- ==== Sys2Proof/Laws/State.lean ====
section
/-! SUPPORT. One lemma per field for the updates of the block and of the state, so that no proof unfolds a record
update. -/

namespace Sys2Proof.Machine

variable (s : State) (b : Block) (v : Word) (e : BlockFault) (opc : Opcode) (n : Count)

@[simp] theorem withBlock_block : (s.withBlock b).block = b := rfl
@[simp] theorem withBlock_events : (s.withBlock b).events = s.events := rfl
@[simp] theorem withBlock_reads : (s.withBlock b).reads = s.reads := rfl
@[simp] theorem withBlock_draws : (s.withBlock b).draws = s.draws := rfl

@[simp] theorem takeFault_seed : (takeFault e b).seed = b.seed := rfl
@[simp] theorem takeFault_din : (takeFault e b).din = b.din := rfl
@[simp] theorem takeFault_dout : (takeFault e b).dout = b.dout := rfl
@[simp] theorem takeFault_lfsr : (takeFault e b).lfsr = b.lfsr := rfl
@[simp] theorem takeFault_count : (takeFault e b).count = b.count := rfl
@[simp] theorem takeFault_op : (takeFault e b).op = b.op := rfl
@[simp] theorem takeFault_busy : (takeFault e b).busy = false := rfl
@[simp] theorem takeFault_done : (takeFault e b).done = false := rfl
@[simp] theorem takeFault_err : (takeFault e b).err = faultCode e := rfl

@[simp] theorem acceptCommand_seed : (acceptCommand opc n b).seed = b.seed := rfl
@[simp] theorem acceptCommand_din : (acceptCommand opc n b).din = b.din := rfl
@[simp] theorem acceptCommand_dout : (acceptCommand opc n b).dout = b.dout := rfl
@[simp] theorem acceptCommand_lfsr :
    (acceptCommand opc n b).lfsr = if loadsLfsr opc then b.seed else b.lfsr := rfl
@[simp] theorem acceptCommand_count : (acceptCommand opc n b).count = n := rfl
@[simp] theorem acceptCommand_op : (acceptCommand opc n b).op = opc := rfl
@[simp] theorem acceptCommand_busy : (acceptCommand opc n b).busy = true := rfl
@[simp] theorem acceptCommand_done : (acceptCommand opc n b).done = false := rfl
@[simp] theorem acceptCommand_err : (acceptCommand opc n b).err = b.err := rfl

@[simp] theorem advancingTick_seed : (advancingTick b).seed = b.seed := rfl
@[simp] theorem advancingTick_din : (advancingTick b).din = b.din := rfl
@[simp] theorem advancingTick_dout : (advancingTick b).dout = b.dout := rfl
@[simp] theorem advancingTick_lfsr : (advancingTick b).lfsr = advance b.lfsr := rfl
@[simp] theorem advancingTick_count : (advancingTick b).count = b.count - 1 := rfl
@[simp] theorem advancingTick_op : (advancingTick b).op = b.op := rfl
@[simp] theorem advancingTick_busy : (advancingTick b).busy = b.busy := rfl
@[simp] theorem advancingTick_done : (advancingTick b).done = b.done := rfl
@[simp] theorem advancingTick_err : (advancingTick b).err = b.err := rfl

@[simp] theorem finishWith_seed : (finishWith v b).seed = b.seed := rfl
@[simp] theorem finishWith_din : (finishWith v b).din = b.din := rfl
@[simp] theorem finishWith_dout : (finishWith v b).dout = v := rfl
@[simp] theorem finishWith_lfsr : (finishWith v b).lfsr = b.lfsr := rfl
@[simp] theorem finishWith_count : (finishWith v b).count = b.count := rfl
@[simp] theorem finishWith_op : (finishWith v b).op = b.op := rfl
@[simp] theorem finishWith_busy : (finishWith v b).busy = false := rfl
@[simp] theorem finishWith_done : (finishWith v b).done = true := rfl
@[simp] theorem finishWith_err : (finishWith v b).err = b.err := rfl

end Sys2Proof.Machine
end

