-- ==== Sys2Proof/Laws/Ops.lean ====
section
/-! SUPPORT. One lemma per shared operation that says everything it can do; proofs cite these instead of unfolding
the operation. -/

namespace Sys2Proof.Machine

/-! ## The write gate (R96) -/

theorem gatedWrite_faulted {b : Block} (perform : Block → Block) (h : b.Faulted) : gatedWrite perform b = b :=
  if_pos h

theorem gatedWrite_busy {b : Block} (perform : Block → Block) (he : b.err = 0) (hb : b.busy = true) :
    gatedWrite perform b = takeFault .busyWrite b := by
  simp [gatedWrite, he, hb]

theorem gatedWrite_idle {b : Block} (perform : Block → Block) (h : b.Idle) : gatedWrite perform b = perform b := by
  simp [gatedWrite, h.1, h.2]

/-- A gated write is ignored, faults, or is performed, and the state alone says which. -/
theorem gatedWrite_cases (perform : Block → Block) (b : Block) :
    (b.Faulted ∧ gatedWrite perform b = b) ∨
    (b.err = 0 ∧ b.busy = true ∧ gatedWrite perform b = takeFault .busyWrite b) ∨
    (b.Idle ∧ gatedWrite perform b = perform b) := by
  by_cases he : b.err = 0
  · cases hb : b.busy with
    | true => exact .inr (.inl ⟨he, rfl, gatedWrite_busy perform he hb⟩)
    | false => exact .inr (.inr ⟨⟨hb, he⟩, gatedWrite_idle perform ⟨hb, he⟩⟩)
  · exact .inl ⟨he, gatedWrite_faulted perform he⟩

/-! ## Commands -/

/-- What the acceptance of a command does to an Idle block (R52, R99). -/
def acceptanceOf : Instr → Block → Block
  | .advance => acceptCommand 1 1
  | .stream steps => acceptCommand 2 steps
  | .maskIn => acceptCommand 3 0
  | .maskOut => acceptCommand 4 0
  | .encode id => acceptSlotCommand 5 id
  | .decode id => acceptSlotCommand 6 id

/-- Every command is one gated write of the block and touches nothing else of the machine. -/
theorem exec_eq_next (i : Instr) (s : State) :
    exec i s = .next (s.withBlock (gatedWrite (acceptanceOf i) s.block)) := by
  cases i <;> rfl

theorem commandWrite_illegal {c : Word} (h : decode c = none) (s : State) :
    commandWrite c s = .next (s.withBlock (gatedWrite (takeFault .illegalCommand) s.block)) := by
  simp [commandWrite, h, commandEvent]

theorem commandWrite_legal {c : Word} {i : Instr} (h : decode c = some i) (s : State) :
    commandWrite c s = exec i s := by
  simp [commandWrite, h]

/-! ## Ticks (R65, R66) -/

theorem tick_notBusy {s : State} (r : Option Draw) (h : s.block.busy = false) : tick r s = .next s :=
  if_pos h

theorem tick_advancing {s : State} (r : Option Draw) (hb : s.block.busy = true) (hc : s.block.count ≠ 0) :
    tick r s = .next (s.withBlock (advancingTick s.block)) := by
  rw [tick, if_neg (by simp [hb]), if_pos hc]

theorem tick_final {s : State} (r : Option Draw) (hb : s.block.busy = true) (hc : s.block.count = 0) :
    tick r s = finalisationTick r s := by
  simp [tick, hb, hc]

/-- The finalisation tick writes the value `finalResult` gives, and counts a draw where the command takes one. -/
theorem finalisationTick_of_result {s : State} {r : Option Draw} {v : Word}
    (h : finalResult s.block (drawValue r s.draws) = some v) :
    finalisationTick r s = .next { s with
      block := finishWith v s.block
      draws := if takesDraw s.block.op then s.draws + 1 else s.draws } := by
  simp [finalisationTick, h]

/-- `finalResult` has a value exactly for the six opcodes. -/
theorem finalResult_isSome (b : Block) (r : Draw) :
    (finalResult b r).isSome = decide (1 ≤ b.op.toNat ∧ b.op.toNat ≤ 6) := by
  unfold finalResult
  split
  case h_7 x h1 h2 h3 h4 h5 h6 =>
    have : ¬ (1 ≤ b.op.toNat ∧ b.op.toNat ≤ 6) := by
      rintro ⟨hl, hu⟩
      interval_cases h : b.op.toNat <;> simp_all
    simp [this]
  all_goals simp [*]

/-! ## The event list -/

theorem nextEvent_cons {s : State} {e : Event} {rest : List Event} (h : s.events = e :: rest) : nextEvent s = e := by
  simp [nextEvent, h]

theorem afterNextEvent_cons {s : State} {e : Event} {rest : List Event} (h : s.events = e :: rest) :
    afterNextEvent s = { s with events := rest } := by
  simp [afterNextEvent, h]

/-- A step performs the first listed event with the rest of the list to come. -/
theorem step_cons {s : State} {e : Event} {rest : List Event} (h : s.events = e :: rest) :
    step s = performEvent e { s with events := rest } := by
  rw [step, nextEvent_cons h, afterNextEvent_cons h]

/-- With no event listed, a step is a tick. -/
theorem step_nil {s : State} (h : s.events = []) : step s = tick none s := by
  cases s
  simp_all [step, nextEvent, afterNextEvent, performEvent]

end Sys2Proof.Machine
end

