-- ==== Sys2Proof/Laws/PerInstr.lean ====
section
/-! SUPPORT. The family RowWord: the command word of an instruction is a word of the instruction's own row of the
opcode table (R48), with its `ARG` field the instruction's operand. -/

namespace Sys2Proof.Laws.RowWord

/-- The row of the table that a command stands in. -/
def rowOf : Instr → OpcodeRow
  | .advance => ⟨"ADVANCE", 1, 0xFFFFFFFF, 0x00000001⟩
  | .stream _ => ⟨"STREAM", 2, 0xFFFF00FF, 0x00000002⟩
  | .maskIn => ⟨"MASK_IN", 3, 0xFFFFFFFF, 0x00000003⟩
  | .maskOut => ⟨"MASK_OUT", 4, 0xFFFFFFFF, 0x00000004⟩
  | .encode _ => ⟨"ENCODE", 5, 0xFFFF00FF, 0x00000005⟩
  | .decode _ => ⟨"DECODE", 6, 0xFFFF00FF, 0x00000006⟩

/-- The row is one of the table, it selects the command's word, and the operand stands in `ARG`. -/
def Statement (i : Instr) : Prop :=
  rowOf i ∈ opcodeTable ∧ (rowOf i).selects (Sys2Proof.encode i) = true ∧ argField (Sys2Proof.encode i) = argOf i

theorem word_row (arg : Count) (opc : Opcode) : (commandWord arg opc &&& 0xFFFF00FF#32) = opc.zeroExtend 32 := by
  apply BitVec.eq_of_getLsbD_eq
  intro i hi
  simp only [commandWord, BitVec.getLsbD_and, BitVec.getLsbD_append]
  interval_cases i <;> simp

theorem word_arg (arg : Count) (opc : Opcode) : argField (commandWord arg opc) = arg := by
  apply BitVec.eq_of_getLsbD_eq
  intro i hi
  simp only [argField, commandWord, BitVec.getLsbD_extractLsb', BitVec.getLsbD_append]
  interval_cases i <;> simp

theorem advance : Statement .advance := by unfold Statement; decide

theorem stream (steps : Count) : Statement (.stream steps) :=
  ⟨by simp [rowOf, opcodeTable], by simp [OpcodeRow.selects, rowOf, Sys2Proof.encode, opcodeOf, word_row], word_arg _ _⟩

theorem maskIn : Statement .maskIn := by unfold Statement; decide

theorem maskOut : Statement .maskOut := by unfold Statement; decide

theorem encode (id : Count) : Statement (.encode id) :=
  ⟨by simp [rowOf, opcodeTable], by simp [OpcodeRow.selects, rowOf, Sys2Proof.encode, opcodeOf, word_row], word_arg _ _⟩

theorem decode (id : Count) : Statement (.decode id) :=
  ⟨by simp [rowOf, opcodeTable], by simp [OpcodeRow.selects, rowOf, Sys2Proof.encode, opcodeOf, word_row], word_arg _ _⟩

end Sys2Proof.Laws.RowWord
end

