-- ==== Sys2Proof/Laws/Step.lean ====
section
/-! SUPPORT. What one step can do, said once, and how steps chain. -/

namespace Sys2Proof.Machine

/-! ## Host writes (R96) -/

/-- Writes of indices 3 to 7 are ignored in every state (R100). -/
theorem hostWrite_ignored {i : RegIndex} (v : Word) (s : State) (h : 3 ≤ i.toNat) : hostWrite i v s = .next s := by
  have hr : regAt i = .status ∨ regAt i = .dout ∨ regAt i = .lfsr ∨ regAt i = .count ∨ regAt i = .reserved := by
    revert h; revert i; decide
  rcases hr with hr | hr | hr | hr | hr <;> simp [hostWrite, hr]

/-- What the block does with a command word past the gate: the acceptance of the command it is, or `IllegalCommand`. -/
def commandPerform (c : Word) : Block → Block :=
  match decode c with
  | some i => acceptanceOf i
  | none => takeFault .illegalCommand

theorem commandWrite_eq_next (c : Word) (s : State) :
    commandWrite c s = .next (s.withBlock (gatedWrite (commandPerform c) s.block)) := by
  cases h : decode c with
  | none => rw [commandWrite_illegal h, commandPerform, h]
  | some i => rw [commandWrite_legal h, exec_eq_next, commandPerform, h]

/-- What a host write past the gate does, by its index. -/
def writePerform (i : RegIndex) (v : Word) : Block → Block :=
  match regAt i with
  | .seed => writeSeed v
  | .din => writeDin v
  | .cmd => commandPerform v
  | _ => id

/-- Every host write answers a next state that differs at most in the block: ignored for indices 3 to 7, else gated. -/
theorem hostWrite_eq_next (i : RegIndex) (v : Word) (s : State) :
    hostWrite i v s =
      .next (s.withBlock (if i.toNat ≤ 2 then gatedWrite (writePerform i v) s.block else s.block)) := by
  by_cases h : i.toNat ≤ 2
  · have hi : i = 0 ∨ i = 1 ∨ i = 2 := by revert h; revert i; decide
    rw [if_pos h]
    rcases hi with rfl | rfl | rfl
    · rfl
    · rfl
    · exact commandWrite_eq_next v s
  · rw [if_neg h, hostWrite_ignored v s (by omega)]
    rfl

/-! ## One step -/

/-- If a step answers a next state, one of seven things happened: a reset, a read, a turn of `WAIT`, a host write, a
tick with no step, an advancing tick, a finalisation tick. -/
theorem step_cases {s t : State} (h : step s = .next t) :
    (nextEvent s = .reset ∧ t = (afterNextEvent s).withBlock Block.reset) ∨
    (∃ i, nextEvent s = .hostRead i ∧ t = hostRead i (afterNextEvent s)) ∨
    (∃ gaps, nextEvent s = .wait gaps ∧ t = waitTurn gaps (afterNextEvent s)) ∨
    (∃ i v, nextEvent s = .hostWrite i v ∧ t = (afterNextEvent s).withBlock
      (if i.toNat ≤ 2 then gatedWrite (writePerform i v) s.block else s.block)) ∨
    (∃ r, nextEvent s = .tick r ∧ s.block.busy = false ∧ t = afterNextEvent s) ∨
    (∃ r, nextEvent s = .tick r ∧ s.block.busy = true ∧ s.block.count ≠ 0 ∧
      t = (afterNextEvent s).withBlock (advancingTick s.block)) ∨
    (∃ r v, nextEvent s = .tick r ∧ s.block.busy = true ∧ s.block.count = 0 ∧
      finalResult s.block (drawValue r s.draws) = some v ∧
      t = { afterNextEvent s with
        block := finishWith v s.block
        draws := if takesDraw s.block.op then s.draws + 1 else s.draws }) := by
  unfold step performEvent at h
  cases hn : nextEvent s with
  | reset =>
    simp only [hn] at h
    injection h with h
    exact .inl ⟨rfl, h.symm⟩
  | hostRead i =>
    simp only [hn] at h
    injection h with h
    exact .inr (.inl ⟨i, rfl, h.symm⟩)
  | wait gaps =>
    simp only [hn] at h
    injection h with h
    exact .inr (.inr (.inl ⟨gaps, rfl, h.symm⟩))
  | hostWrite i v =>
    simp only [hn] at h
    rw [hostWrite_eq_next] at h
    injection h with h
    exact .inr (.inr (.inr (.inl ⟨i, v, rfl, h.symm⟩)))
  | tick r =>
    simp only [hn] at h
    by_cases hb : s.block.busy = false
    · rw [tick_notBusy (s := afterNextEvent s) r hb] at h
      injection h with h
      exact .inr (.inr (.inr (.inr (.inl ⟨r, rfl, hb, h.symm⟩))))
    · have hb : s.block.busy = true := by simpa using hb
      by_cases hc : s.block.count = 0
      · rw [tick_final (s := afterNextEvent s) r hb hc, finalisationTick] at h
        split at h
        · rename_i v hv
          injection h with h
          exact .inr (.inr (.inr (.inr (.inr (.inr ⟨r, v, rfl, hb, hc, hv, h.symm⟩)))))
        · cases h
      · rw [tick_advancing (s := afterNextEvent s) r hb hc] at h
        injection h with h
        exact .inr (.inr (.inr (.inr (.inr (.inl ⟨r, rfl, hb, hc, h.symm⟩)))))

/-- A turn of `WAIT` leaves the block and the draws, and reads `STATUS`. -/
theorem waitTurn_block (gaps : List Nat) (s : State) : (waitTurn gaps s).block = s.block := by
  unfold waitTurn; split <;> rfl

theorem waitTurn_draws (gaps : List Nat) (s : State) : (waitTurn gaps s).draws = s.draws := by
  unfold waitTurn; split <;> rfl

theorem waitTurn_reads (gaps : List Nat) (s : State) :
    (waitTurn gaps s).reads = readIndex s.block 3 :: s.reads := by
  unfold waitTurn; split <;> rfl

/-! ## Runs -/

theorem run_zero (s : State) : run 0 s = .next s := rfl

theorem run_succ {s t : State} (k : Nat) (h : step s = .next t) : run (k + 1) s = run k t := by
  simp [run, h]

/-- Two runs, one after the other. -/
theorem run_add {s t : State} (j k : Nat) (h : run j s = .next t) : run (j + k) s = run k t := by
  induction j generalizing s with
  | zero =>
    injection h with h
    rw [h, Nat.zero_add]
  | succ j ih =>
    rw [Nat.add_right_comm]
    cases hs : step s with
    | next u =>
      rw [run_succ _ hs] at h ⊢
      exact ih h
    | fault r => simp [run, hs] at h
    | refused r => simp [run, hs] at h

/-- `run` is the host's run of this machine. -/
theorem run_eq_core_run (k : Nat) (s : State) : run k s = Host.Core.run Sys2Proof.core k s := by
  induction k generalizing s with
  | zero => rfl
  | succ k ih =>
    have hc : Sys2Proof.core.step s = step s := rfl
    simp only [run, Host.Core.run, hc]
    cases step s with
    | next t => exact ih t
    | fault r => rfl
    | refused r => rfl

end Sys2Proof.Machine
end

