-- ==== Sys2Proof/Laws/Words.lean ====
section
/-! SUPPORT. The named widths of R4 as numbers: a value is below two to its width, and what a number read into a
width comes to. For arithmetic on `toNat`, which does not see through a named width. -/

namespace Sys2Proof

/-- A register index below `NREG` is exactly one of `indexBits` bits (R30). -/
theorem nreg_eq_two_pow_indexBits : Config.nreg = 2 ^ Config.indexBits := rfl

/-- The mask overlay lies above the payload and fills the word (R4). -/
theorem payloadBits_add_drawBits : Config.payloadBits + Config.drawBits = Config.wordBits := rfl

theorem word_toNat_lt (v : Word) : v.toNat < 4294967296 := v.isLt
theorem count_toNat_lt (n : Count) : n.toNat < 256 := n.isLt
theorem regIndex_toNat_lt (i : RegIndex) : i.toNat < 8 := i.isLt
theorem draw_toNat_lt (r : Draw) : r.toNat < 4 := r.isLt

theorem word_ofNat_toNat (k : Nat) : (BitVec.ofNat Config.wordBits k).toNat = k % 4294967296 := rfl
theorem count_ofNat_toNat (k : Nat) : (BitVec.ofNat Config.countBits k).toNat = k % 256 := rfl

end Sys2Proof
end

