-- ==== Sys2Proof/Tests/Slice0.lean ====
section
/-! SUPPORT. The model's own tests: WellFormed's refusals, written-out words, one-command and one-event checks whose
expected values stand in spec/95_test_vectors.md (the row is named), and for every obligation with hypotheses a
concrete state and operands that meet them (`test_witness_<obligation>`). -/

namespace Sys2Proof.Tests

open Sys2Proof Sys2Proof.Machine

/-! ## Helpers -/

/-- The block after the listed events, from reset, if no step stops. -/
def blockAfter (es : List Event) : Option Block :=
  match run es.length (State.reset.withSchedule es) with
  | .next t => some t.block
  | .fault _ => none
  | .refused _ => none

/-- The values read after the listed events, from reset, newest first. -/
def readsAfter (es : List Event) : List Word :=
  match run es.length (State.reset.withSchedule es) with
  | .next t => t.reads
  | .fault _ => []
  | .refused _ => []

/-- The block after one outcome, if it is a next state. -/
def blockOf : Host.Outcome State Fault Refusal → Option Block
  | .next t => some t.block
  | .fault _ => none
  | .refused _ => none

/-- `STATUS`, `COUNT`, `LFSR` and `DOUT` of a block. -/
def view (b : Block) : Word × Word × Word × Word :=
  (readIndex b 3, readIndex b 6, readIndex b 5, readIndex b 4)

/-- What V-E of 95_test_vectors.md lists: `STATUS` and `COUNT` after the word is written in the reset state. -/
def afterWord (c : Word) : Option (Word × Word) :=
  (blockAfter [.hostWrite 2 c]).map fun b => (readIndex b 3, readIndex b 6)

/-- `n` ticks that name no draw. -/
def ticks (n : Nat) : List Event := List.replicate n (.tick none)

/-- An Idle block with the given operands, its last command a finished `STREAM`. -/
def idleState (seed din : Word) (es : List Event) : State where
  block := ⟨seed, din, 0x11111111, 0x22222222, 0, 2, false, true, 0⟩
  events := es
  reads := []
  draws := 5

/-- A block in the middle of the command `op` with `count` steps to do. -/
def busyState (op : Opcode) (count : Count) (es : List Event) : State where
  block := ⟨1, 0x2A, 0x11111111, 0x00042021, count, op, true, false, 0⟩
  events := es
  reads := []
  draws := 5

/-- A block that a `BusyWrite` froze with steps left (V-F, step 2). -/
def faultedState (es : List Event) : State where
  block := ⟨1, 0, 0, 0x00042021, 2, 2, false, false, 3⟩
  events := es
  reads := []
  draws := 5

/-! ## WellFormed: an ill-formed term for each check -/

theorem test_wellFormed_refuses_encode_100 : (Instr.encode 100).wellFormed = false := by decide
theorem test_wellFormed_refuses_decode_255 : (Instr.decode 255).wellFormed = false := by decide
theorem test_wellFormed_admits_slot_99 :
    (Instr.encode 99).wellFormed = true ∧ (Instr.decode 99).wellFormed = true := by decide

/-! ## Decoding: words written out from R46 and R48 (Z1 ++ ARG ++ Z0 ++ OPC) -/

theorem test_decode_advance : decode 0b00000000000000000000000000000001 = some .advance := by decide
theorem test_decode_stream : decode 0b00000000000000001111111100000010 = some (.stream 255) := by decide
theorem test_decode_maskIn : decode 0b00000000000000000000000000000011 = some .maskIn := by decide
theorem test_decode_maskOut : decode 0b00000000000000000000000000000100 = some .maskOut := by decide
theorem test_decode_encode : decode 0b00000000000000000110001100000101 = some (.encode 99) := by decide
theorem test_decode_decode : decode 0b00000000000000000000011100000110 = some (.decode 7) := by decide

/-- V-E: the words that are `IllegalCommand` in form. -/
theorem test_decode_rejects_illegal_words :
    [0x00000000, 0x00000007, 0x0000000F, 0x00000015, 0x00010005, 0x80000002, 0x00000101, 0x00000103, 0x00000104,
      0x00016405, 0x00006415].map decode = List.replicate 11 none := by decide

theorem test_decodeTableWord :
    decodeTableWord 32 0x00000802 = some (.stream 8) ∧ decodeTableWord 8 0x05 = some (.encode 0) ∧
    decodeTableWord 32 0x00010001 = none ∧ decodeTableWord 40 1 = none := by decide

/-- A placed word runs as the first event after reset. -/
theorem test_withFetchWord_runs_stream :
    blockOf (step (State.reset.withFetchWord 32 0x00000802)) = blockOf (exec (.stream 8) State.reset) ∧
    (blockOf (step (State.reset.withFetchWord 32 0x00000802))).map (fun b => b.count) = some 8 := by decide

/-! ## The commands -/

/-- V-K1, the row of the top bit: the right shift is logical. -/
theorem test_advance_top_bit : advance 0x80000000 = 0x80084000 := by decide

/-- P2: `ADVANCE` on `SEED = 0x00042021` takes two ticks. -/
theorem test_exec_advance :
    (blockAfter ([.hostWrite 0 0x00042021, .hostWrite 2 0x00000001] ++ ticks 2)).map view =
      some (0x00000102, 0, 0x04080601, 0x04080601) := by decide

/-- P2: `STREAM 0` gives the seed back after one tick. -/
theorem test_exec_stream_zero :
    (blockAfter ([.hostWrite 0 1, .hostWrite 2 0x00000002] ++ ticks 1)).map view =
      some (0x00000202, 0, 1, 1) := by decide

/-- V-K2, seed `0x075BCD15`, 8 steps. -/
theorem test_exec_stream_eight :
    (blockAfter ([.hostWrite 0 123456789, .hostWrite 2 0x00000802] ++ ticks 9)).map view =
      some (0x00000202, 0, 0xDA4D704C, 0xDA4D704C) := by decide

/-- P5: `MASK_IN` with draw 1 keeps `LFSR`. -/
theorem test_exec_maskIn :
    (blockAfter ([.hostWrite 0 1, .hostWrite 2 0x00000302] ++ ticks 4 ++
      [.hostWrite 1 0xFFFFFFFF, .hostWrite 2 0x00000003, .tick (some 1)])).map view =
      some (0x00000302, 0, 0x9DCCA8C5, 0x7FFFFFFF) := by decide

/-- V-M2: `MASK_OUT` of `0xC000002A`. -/
theorem test_exec_maskOut :
    (blockAfter [.hostWrite 1 0xC000002A, .hostWrite 2 0x00000004, .tick none]).map view =
      some (0x00000402, 0, 0, 0x0000002A) := by decide

/-- V-C1, draw 3: `ENCODE 7`. -/
theorem test_exec_encode :
    (blockAfter ([.hostWrite 0 123456789, .hostWrite 1 42, .hostWrite 2 0x00000705] ++ ticks 8 ++
      [.tick (some 3)])).map view = some (0x00000502, 0, 0xDA4D704C, 0x1A4D7066) := by decide

/-- V-E: `ENCODE 100` is `InvalidSlot`. -/
theorem test_exec_encode_slot_100 : afterWord 0x00006405 = some (0x00000020, 0) := by decide

/-- V-D9: `DECODE 7` under a wrong key. -/
theorem test_exec_decode :
    (blockAfter ([.hostWrite 0 123456788, .hostWrite 1 0xDA4D7066, .hostWrite 2 0x00000706] ++ ticks 9)).map view =
      some (0x00000602, 0, 0xC3B46CFE, 0x19F91C98) := by decide

/-- V-E: `ARG = 255` is `InvalidSlot`; the step count is never computed. -/
theorem test_exec_decode_slot_255 : afterWord 0x0000FF06 = some (0x00000020, 0) := by decide

/-- V-E, accepted rows. -/
theorem test_accepted_words :
    [0x00000001, 0x0000FF02, 0x00000003, 0x00006305, 0x00006306].map afterWord =
      [some (0x00000101, 1), some (0x00000201, 255), some (0x00000301, 0), some (0x00000501, 100),
        some (0x00000601, 100)] := by decide

/-! ## Host accesses, faults, reset -/

/-- V-H, steps 4 to 7: writes of the read-only indices are ignored, `CMD` reads 0. -/
theorem test_ignored_writes :
    readsAfter [.hostWrite 3 0xFFFFFFFF, .hostWrite 4 5, .hostWrite 5 5, .hostWrite 6 5, .hostWrite 7 5,
      .hostRead 3, .hostRead 4, .hostRead 5, .hostRead 6, .hostRead 7, .hostRead 2] = List.replicate 6 0 := by decide

/-- V-F, steps 1 to 4: `BusyWrite`, then nothing until reset. -/
theorem test_busyWrite_freezes :
    (blockAfter [.hostWrite 0 1, .hostWrite 2 0x00000302, .tick none, .hostWrite 1 5, .tick none, .hostWrite 0 7,
      .hostWrite 2 2, .hostWrite 2 0]).map (fun b => (view b, b.seed, b.din)) =
      some ((0x00000230, 2, 0x00042021, 0), 1, 0) := by decide

/-- V-F, step 8: the `DOUT` of the finished command survives an `InvalidSlot`. -/
theorem test_invalidSlot_keeps_dout :
    (blockAfter [.hostWrite 0 1, .hostWrite 2 2, .tick none, .hostWrite 2 0x00006405]).map view =
      some (0x00000220, 0, 1, 1) := by decide

/-- V-R: `RESET` in the middle of a command, and the tick after it. -/
theorem test_reset_in_progress :
    blockAfter [.hostWrite 0 1, .hostWrite 2 0x00000302, .tick none, .reset, .tick none] = some Block.reset := by
  decide

/-- R101: a `WAIT` with gaps 0 and 3 after `STREAM 3` reads `STATUS` four times, the last with `DONE = 1`. -/
theorem test_wait_reads :
    (match run 9 (State.reset.withSchedule [.hostWrite 2 0x00000302, .wait [0, 3]]) with
      | .next t => t.reads
      | .fault _ => []
      | .refused _ => []) = [0x202, 0x201, 0x201, 0x201] := by decide

/-! ## Host programs and host software -/

theorem test_assemble_refuses_out_of_range :
    assemble (.stream 256) = none ∧ assemble (.encode 100) = none ∧ assemble (.wr (.index 8) 0) = none ∧
    assemble (.tickDraw 4) = none := by decide

theorem test_assemble_program :
    assembleProgram [.reset, .wr (.name .seed) 123456789, .encode 7, .tickDraw 2, .wait, .rd (.name .dout)] =
      some [.reset, .hostWrite 0 0x075BCD15, .hostWrite 2 0x00000705, .tick (some 2), .wait [], .hostRead 4] := by
  decide

/-- One policy of U8. -/
def policy : CodecPolicy := ⟨fun _ => 0, none⟩

/-- `parse` as data that can be compared. -/
def parsed (bytes : List Byte) : ParseError ⊕ List RawRecord :=
  match parse policy bytes with
  | .ok rs => .inr rs
  | .error e => .inl e

/-- S6. -/
theorem test_parse_errors :
    parsed [0x02, 0x07, 0, 0, 0, 1, 0x07, 0, 0, 0, 2] = .inl .duplicateSlot ∧
    parsed [0x02, 0x07, 0, 0, 0, 1] = .inl .truncatedInput ∧ parsed [] = .inl .emptyInput ∧
    parsed [0x01, 0x64, 0, 0, 0, 0] = .inl .invalidSlot ∧ parsed [0x00] = .inr [] := by decide

/-- R119: the worked example. -/
theorem test_parse_example :
    parsed [0x01, 0x07, 0xDA, 0x4D, 0x70, 0x66] = .inr [⟨7, 0xDA4D7066⟩] := by decide

/-- S7: the zero pin is not written. -/
theorem test_save_omits_zero :
    saveVault 123456789 (fun _ => 0) [⟨3, 0⟩, ⟨7, 42⟩] = [0x01, 0x07, 0xDA, 0x4D, 0x70, 0x66] := by decide

/-- R114: a pin whose low 30 bits are 0 decodes to 0, so it is not written either. -/
theorem test_save_omits_pin_that_decodes_to_zero :
    saveVault 1 (fun _ => 2) [⟨3, 0x40000000⟩, ⟨5, 0xC0000000⟩] = [0x00] := by decide

/-- P4, its first two records: the right key scores 1 under the known set of 1234; the wrong one decodes the first
record to 271603 and is cut short at the second. -/
theorem test_score_P4 :
    score (.known [1234]) [⟨0, 0xA1D31B9B⟩, ⟨1, 0xFEEB5D2B⟩] 123456789 = 1 ∧
    score (.known [271603]) [⟨0, 0xA1D31B9B⟩, ⟨1, 0xFEEB5D2B⟩] 123456788 = 0 := by decide

/-- S4: the small instance. -/
theorem test_workerKeys :
    workerKeys 10 3 0 = [0, 3, 6, 9] ∧ workerKeys 10 3 1 = [1, 4, 7] ∧ workerKeys 10 3 2 = [2, 5, 8] := by decide

/-- R115: descending by score. -/
theorem test_sortByScore : sortByScore [⟨1, 1⟩, ⟨2, 3⟩, ⟨3, 2⟩] = [⟨2, 3⟩, ⟨3, 2⟩, ⟨1, 1⟩] := by decide

/-- Log 16: candidates of one score stay in the order they came. -/
theorem test_sortByScore_stable : sortByScore [⟨7, 1⟩, ⟨5, 1⟩, ⟨6, 2⟩] = [⟨6, 2⟩, ⟨7, 1⟩, ⟨5, 1⟩] := by decide

/-- R130, on S6's repeated id: neither the editor nor the engine goes on. -/
theorem test_rejected_vault :
    (match openVault policy 1 [0x02, 0x07, 0, 0, 0, 1, 0x07, 0, 0, 0, 2] with
      | .ok _ => none
      | .error e => some e) = some .duplicateSlot ∧
    (match crackVault policy (.known [42]) [0x02, 0x07, 0, 0, 0, 1, 0x07, 0, 0, 0, 2] 1 (fun _ => false) with
      | .ok _ => none
      | .error e => some e) = some (.invalidVault .duplicateSlot) := by decide

/-! ## Witnesses: the pure functions and the encoding -/

theorem test_witness_MaskInReplacesTopTwoBits :
    (29 : Nat) < 30 ∧ (maskIn 0x7FFFFFFF 0).getLsbD 29 = true ∧ (maskIn 0x7FFFFFFF 0).getLsbD 30 = false := by decide
theorem test_witness_MaskOutClearsTopTwoBits :
    (0x3FFFFFFF : Word).toNat < 2 ^ 30 ∧ maskOut (maskIn 0x3FFFFFFF 3) = 0x3FFFFFFF := by decide
theorem test_witness_EncodeMasksThenXorsKeystream :
    (29 : Nat) < 30 ∧ (cipherEncode 1 0 0x3FFFFFFF 0).getLsbD 29 = true := by decide
theorem test_witness_DecodeOfEncodeGivesPinBack :
    (0x3FFFFFFF : Word).toNat < 2 ^ 30 ∧ cipherEncode 1 0 0x3FFFFFFF 2 = 0xBFFBDFDE ∧
    cipherDecode 1 0 0xBFFBDFDE = 0x3FFFFFFF := by decide
theorem test_witness_EncodingsDifferExactlyAsTheirDraws :
    cipherEncode 123456789 7 42 0 = 0xDA4D7066 ∧ cipherEncode 123456789 7 42 1 = 0x9A4D7066 := by decide
theorem test_witness_StreamComposesAndIsLinearBijection : stream 0 5 = 0 := by decide
theorem test_witness_DecoderFollowsMaskMatchTable :
    decode 0x0000FF05 = some (.encode 255) ∧ (0x0000FF05 &&& 0xFFFF00FF : Word) = 5 := by decide

/-! ## Witnesses: one event -/

theorem test_witness_ResetZeroesEveryPieceOfState :
    (busyState 5 3 [.reset, .hostRead 4]).events = [.reset, .hostRead 4] := by decide
theorem test_witness_ReadReturnsItsRegister :
    (List.finRange 8).map (fun i => readIndex (busyState 2 3 []).block (BitVec.ofFin i)) =
      [1, 0x2A, 0, 0x201, 0x11111111, 0x00042021, 3, 0] ∧
    (busyState 2 3 [.hostRead 7]).events = [.hostRead 7] := by decide
theorem test_witness_StatusWordHasItsFields :
    (idleState 1 2 [.hostWrite 3 0xFFFFFFFF]).events = [.hostWrite 3 0xFFFFFFFF] := by decide
/-- The three states of R96 with the indices on both sides of its boundary, and the three answers of R52. -/
theorem test_witness_WriteIsDecidedByStateThenIndex :
    (idleState 1 2 [.hostWrite 0 9]).block.Idle ∧
    ((busyState 2 3 []).block.err = 0 ∧ (busyState 2 3 []).block.busy = true) ∧ (faultedState []).block.err ≠ 0 ∧
    (2 : RegIndex).toNat ≤ 2 ∧ 3 ≤ (3 : RegIndex).toNat ∧ 3 ≤ (7 : RegIndex).toNat ∧
    decodeCmd 0x00006305 = .accept 5 100 ∧ decodeCmd 0x00006405 = .invalidSlot ∧
    decodeCmd 0x00010005 = .illegalCommand := by decide
theorem test_witness_OperandWriteStoresAndReadsBack :
    (idleState 1 2 []).block.Idle ∧ ((busyState 1 0 []).block.err = 0 ∧ (busyState 1 0 []).block.busy = true) ∧
    (faultedState []).block.Faulted := by decide
theorem test_witness_BadCommandWordRaisesItsFault :
    (idleState 1 2 []).block.Idle ∧ (0x00006405 : Word).toNat / 256 % 256 = 100 ∧
    (0x00006405 : Word).toNat % 16 = 5 ∧ (0x0000FF06 : Word).toNat / 256 % 256 = 255 ∧
    (0x00000104 : Word).toNat / 256 % 256 ≠ 0 ∧ (0x00000007 : Word).toNat % 16 = 7 := by decide
theorem test_witness_BusyWriteCutsCommandShort :
    (busyState 2 3 []).block.err = 0 ∧ (busyState 2 3 []).block.busy = true ∧ (0 : RegIndex).toNat ≤ 2 ∧
    (2 : RegIndex).toNat ≤ 2 := by decide
theorem test_witness_FaultEntryWritesOnlyErrBusyDone :
    ∃ t, step (idleState 1 2 [.hostWrite 2 0x00006405]) = .next t ∧
      (idleState 1 2 [.hostWrite 2 0x00006405]).block.err = 0 ∧ t.block.err ≠ 0 := ⟨_, rfl, by decide, by decide⟩
theorem faultedState_inv (es : List Event) : (faultedState es).block.Inv := by
  constructor <;> simp [faultedState]
theorem test_witness_FaultedBlockIsFrozenUntilReset :
    (faultedState [.hostRead 5]).block.Inv ∧ (faultedState [.hostRead 5]).block.Faulted ∧
    nextEvent (faultedState [.hostRead 5]) = .hostRead 5 ∧ nextEvent (faultedState [.reset]) = .reset :=
  ⟨faultedState_inv _, by decide, rfl, rfl⟩
theorem test_witness_AdvancingTickStepsLfsrAndCount :
    (busyState 2 1 []).block.busy = true ∧ (busyState 2 1 []).block.count ≠ 0 ∧
    (busyState 2 255 []).block.count ≠ 0 ∧ (idleState 1 2 []).block.busy = false := by decide
/-- Every opcode R66 gives a formula for. -/
theorem test_witness_FinalisationTickWritesResult :
    ∀ op ∈ ([1, 2, 3, 4, 5, 6] : List Opcode), (busyState op 0 []).block.busy = true ∧
      (busyState op 0 []).block.count = 0 ∧ 1 ≤ (busyState op 0 []).block.op.toNat ∧
      (busyState op 0 []).block.op.toNat ≤ 6 := by decide
theorem test_witness_DrawTakenOnlyAtMaskInAndEncodeEnd :
    ∃ t, step (busyState 5 0 [.tick (some 2)]) = .next t ∧ t.draws = 6 := ⟨_, rfl, rfl⟩

/-! ## Witnesses: the commands -/

theorem tickCount_ticks (n : Nat) : tickCount (ticks n) = n := by
  simp [tickCount, ticks, List.countP_replicate, Event.isTick]

theorem test_witness_StepRunsDecodedCommand :
    (idleState 1 2 [.hostWrite 2 0x00000705]).events = [.hostWrite 2 0x00000705] ∧
    decode 0x00000705 = some (.encode 7) ∧ decodeTableWord 32 0x00000001 = some .advance ∧
    State.reset.events = [] := by decide
theorem test_witness_AdvanceCompletesWithAdvanceOfSeed : (idleState 0xFFFFFFFF 2 []).block.Idle := by decide
theorem test_witness_StreamCompletesWithStreamOfSeed :
    (idleState 1 2 []).block.Idle ∧ tickCount (ticks 255) = (255 : Count).toNat ∧
    tickCount [.hostRead 4] = (0 : Count).toNat := ⟨by decide, tickCount_ticks _, by decide⟩
theorem test_witness_MaskInCompletesWithMaskedDin : (idleState 1 0xFFFFFFFF []).block.Idle := by decide
theorem test_witness_MaskOutCompletesWithUnmaskedDin : (idleState 1 0xC000002A []).block.Idle := by decide
theorem test_witness_EncodeCompletesWithCiphertext :
    (idleState 123456789 42 []).block.Idle ∧ tickCount (ticks 100) = (99 : Slot).val + 1 ∧
    tickCount ([.hostRead 3] ++ ticks 1) = (0 : Slot).val + 1 := ⟨by decide, tickCount_ticks _, by decide⟩
theorem test_witness_DecodeCompletesWithPlaintext :
    (idleState 123456789 0xDA4D7066 []).block.Idle ∧ tickCount (ticks 100) = (99 : Slot).val + 1 ∧
    tickCount (ticks 1) = (0 : Slot).val + 1 := ⟨by decide, tickCount_ticks _, by decide⟩
/-- A schedule that meets `FinishesAfter`'s conditions: reads and ignored writes among the ticks. -/
theorem test_witness_FinishesAfter_schedule :
    let es : List Event := [.hostRead 3, .tick none, .hostWrite 7 5, .tick none]
    (∀ e ∈ es, e.quiet = true) ∧ tickCount es = 2 := by decide
theorem test_witness_CommandIsTurnedAwayByFaultBusyOrSlot :
    (faultedState []).block.Faulted ∧ ((busyState 2 3 []).block.err = 0 ∧ (busyState 2 3 []).block.busy = true) ∧
    (idleState 1 2 []).block.Idle ∧ (Instr.encode 100).wellFormed = false := by decide
theorem test_witness_CommandFrame :
    (∃ t, exec .maskIn (idleState 1 2 []) = .next t) ∧ (idleState 1 2 []).block.Idle ∧
    Instr.maskIn.wellFormed = true ∧ ¬ (faultedState []).block.Idle := ⟨⟨_, rfl⟩, by decide, by decide, by decide⟩
/-- `STREAM 2` with a read among the ticks, finished and one tick short. -/
theorem test_witness_AcceptedCommandComputesItsFunction :
    let es : List Event := [.tick none, .hostRead 5, .tick none]
    let s := idleState 1 2 (.hostWrite 2 0x00000202 :: (es ++ .tick none :: [.hostRead 4]))
    s.block.Idle ∧ decodeCmd 0x00000202 = .accept 2 2 ∧ (∀ e ∈ es, e.quiet = true) ∧
    tickCount es = (2 : Count).toNat ∧ s.events = .hostWrite 2 0x00000202 :: (es ++ .tick none :: [.hostRead 4]) := by
  decide
/-- The other classes of opcode, at their extreme step counts. -/
theorem test_witness_AcceptedCommandComputesItsFunction_counts :
    decodeCmd 0x00000001 = .accept 1 1 ∧ decodeCmd 0x00000002 = .accept 2 0 ∧ decodeCmd 0x0000FF02 = .accept 2 255 ∧
    decodeCmd 0x00000003 = .accept 3 0 ∧ decodeCmd 0x00000004 = .accept 4 0 ∧ decodeCmd 0x00000005 = .accept 5 1 ∧
    decodeCmd 0x00006306 = .accept 6 100 := by decide
theorem test_witness_ResultDependsOnlyOnOperandsAndDraw :
    let es₁ : List Event := [.tick none, .hostRead 5]
    let es₂ : List Event := [.hostRead 3, .tick none]
    let s₁ := idleState 1 2 (.hostWrite 2 0x00000005 :: (es₁ ++ .tick (some 3) :: []))
    let s₂ : State := ⟨⟨1, 2, 7, 8, 0, 0, false, false, 0⟩, .hostWrite 2 0x00000005 :: (es₂ ++ .tick (some 3) :: []),
      [], 0⟩
    s₁.block.Idle ∧ s₂.block.Idle ∧ s₁.block.seed = s₂.block.seed ∧ s₁.block.din = s₂.block.din ∧
    decodeCmd 0x00000005 = .accept 5 1 ∧ (∀ e ∈ es₁, e.quiet = true) ∧ (∀ e ∈ es₂, e.quiet = true) ∧
    tickCount es₁ = (1 : Count).toNat ∧ tickCount es₂ = (1 : Count).toNat ∧
    (∃ u, run (es₁.length + 2) s₁ = .next u) ∧ (∃ u, run (es₂.length + 2) s₂ = .next u) :=
  ⟨by decide, by decide, by decide, by decide, by decide, by decide, by decide, by decide, by decide, ⟨_, rfl⟩,
    ⟨_, rfl⟩⟩
theorem test_witness_HostCallReturnsFunctionValue : (idleState 1 2 [.hostRead 0]).block.Idle := by decide
theorem busyState_inv (es : List Event) : (busyState 2 3 es).block.Inv := by
  constructor <;> simp [busyState]
theorem test_witness_WaitEndsWithDoneOrFaultOnly :
    (busyState 2 3 [.wait [0, 2]]).block.Inv ∧ (busyState 2 3 [.wait [0, 2]]).block.busy = true ∧
    (busyState 2 3 [.wait [0, 2]]).events = .wait [0, 2] :: [] ∧
    (State.reset.withSchedule [.wait []]).block.Idle ∧ (State.reset.withSchedule [.wait []]).block.done = false ∧
    (State.reset.withSchedule [.wait []]).events = [.wait []] :=
  ⟨busyState_inv _, by decide, by decide, by decide, by decide, by decide⟩
theorem test_witness_BusyBlockFinishesInCountPlusOneSteps :
    (busyState 2 3 []).block.Inv ∧ (busyState 2 3 []).block.busy = true ∧ (busyState 2 3 []).events = [] ∧
    3 ≤ (busyState 2 3 []).block.count.toNat := ⟨busyState_inv _, by decide, by decide, by decide⟩
theorem idleState_inv (seed din : Word) (es : List Event) : (idleState seed din es).block.Inv := by
  constructor <;> simp [idleState]
theorem test_witness_ResultStaysWhileNoCommandIsWritten :
    let es : List Event := [.hostWrite 0 5, .tick none, .hostRead 4]
    (idleState 1 2 es).block.Inv ∧ (idleState 1 2 es).block.done = true ∧ (idleState 1 2 es).events = es ++ [] ∧
    ∀ e ∈ es, e ≠ .reset ∧ (∀ v, e ≠ .hostWrite 2 v) ∧ (∀ g, e ≠ .wait g) := by
  refine ⟨idleState_inv _ _ _, rfl, rfl, ?_⟩
  simp

/-! ## Witnesses: who changes what, invariants -/

/-- A step that changes each register in turn. -/
theorem test_witness_EachRegisterHasItsWriters :
    (∃ t, step (idleState 1 2 [.hostWrite 0 9]) = .next t ∧ t.block.seed ≠ (idleState 1 2 []).block.seed) ∧
    (∃ t, step (idleState 1 2 [.hostWrite 1 9]) = .next t ∧ t.block.din ≠ (idleState 1 2 []).block.din) ∧
    (∃ t, step (busyState 4 0 [.tick none]) = .next t ∧ t.block.dout ≠ (busyState 4 0 []).block.dout) ∧
    (∃ t, step (busyState 2 3 [.tick none]) = .next t ∧ t.block.lfsr ≠ (busyState 2 3 []).block.lfsr) ∧
    (∃ t, step (idleState 1 2 [.hostWrite 2 1]) = .next t ∧ t.block.op ≠ (idleState 1 2 []).block.op) :=
  ⟨⟨_, rfl, by decide⟩, ⟨_, rfl, by decide⟩, ⟨_, rfl, by decide⟩, ⟨_, rfl, by decide⟩, ⟨_, rfl, by decide⟩⟩
/-- A step that moves each flag each way. -/
theorem test_witness_BusyAndDoneHaveTheirWriters :
    (∃ t, step (idleState 1 2 [.hostWrite 2 1]) = .next t ∧ t.block.busy = true ∧ t.block.done = false) ∧
    (∃ t, step (busyState 4 0 [.tick none]) = .next t ∧ t.block.busy = false ∧ t.block.done = true) ∧
    (∃ t, step (busyState 2 3 [.hostWrite 1 9]) = .next t ∧ t.block.busy = false) :=
  ⟨⟨_, rfl, by decide, by decide⟩, ⟨_, rfl, by decide, by decide⟩, ⟨_, rfl, by decide⟩⟩
theorem test_witness_StepKeepsRegisterInvariants :
    (busyState 2 3 [.hostWrite 1 9]).block.Inv ∧ ∃ t, step (busyState 2 3 [.hostWrite 1 9]) = .next t :=
  ⟨busyState_inv _, _, rfl⟩
theorem test_witness_ReachableStatesMeetRegisterInvariants : Reachable State.reset := ⟨[], 0, rfl⟩
theorem test_witness_MachineNeverStops : (busyState 2 3 []).block.Inv := busyState_inv _

/-! ## Witnesses: host software -/

/-- Two records, ids 0 and 99: every check passes. -/
theorem test_witness_ParseAcceptsExactlyValidVaults :
    let rest : List Byte := [0, 1, 2, 3, 4, 99, 5, 6, 7, 8]
    rest.length = 5 * (2 : Byte).toNat ∧ (∀ k < (2 : Byte).toNat, (rest.getD (5 * k) 0).toNat ≤ 99) ∧
    (∀ k, k < (2 : Byte).toNat → ∀ j < k, rest.getD (5 * j) 0 ≠ rest.getD (5 * k) 0) ∧
    parsed (2 :: rest) = .inr [⟨0, 0x01020304⟩, ⟨99, 0x05060708⟩] := by decide
theorem test_witness_SavedVaultOpensToItsPins :
    let rs : List PinRecord := [⟨0, 0x3FFFFFFF⟩, ⟨99, 0⟩, ⟨7, 42⟩]
    (rs.map (·.slot)).Nodup ∧ ∀ r ∈ rs, r.pin.toNat < 2 ^ 30 := by decide
/-- Slots 0 and 99, a pin of `2^30` that decodes to 0 and one that does not. -/
theorem test_witness_SavingNeverPersistsZeroPin :
    (([⟨99, 0x40000000⟩, ⟨0, 0x4000002A⟩] : List PinRecord).map (·.slot)).Nodup := by decide
/-- A rejected buffer, and an accepted one whose records are not in slot order. -/
theorem test_witness_RejectedVaultStopsEditorAndEngine :
    parsed [0x01, 0x64, 0, 0, 0, 0] = .inl .invalidSlot ∧
    parsed [0x02, 0x63, 0, 0, 0, 1, 0x00, 0, 0, 0, 2] = .inr [⟨99, 1⟩, ⟨0, 2⟩] ∧
    sortBySlot [⟨99, 1⟩, ⟨0, 2⟩] = [⟨0, 2⟩, ⟨99, 1⟩] := by decide
theorem test_witness_WorkerStridesPartitionKeySpace : 1 ≤ 3 ∧ 2 < 3 ∧ 8 ∈ workerKeys 10 3 2 := by decide
/-- P4's first two records: the second is implausible under the key 123456788, none is under 123456789. -/
theorem test_witness_ImplausibleDecodeZeroesScore :
    let vault : List RawRecord := [⟨0, 0xA1D31B9B⟩, ⟨1, 0xFEEB5D2B⟩]
    (∃ r ∈ vault, 999999999 < (cipherDecode 123456788 r.slot r.word).toNat) ∧
    ∀ r ∈ vault, (cipherDecode 123456789 r.slot r.word).toNat ≤ 999999999 := by decide
theorem test_witness_SearchReturnsEveryScoringKey :
    1 ≤ 1 ∧ SearchMode.known [42] ≠ .known [] ∧ score (.known [42]) [⟨7, 0xDA4D7066⟩] 123456789 ≠ 0 := by decide
theorem test_witness_ScenarioKeyIsFoundInKnownModeOnly :
    (42 : Word) ∉ ([0, 123456789, 987654321] : List Word) := by decide

end Sys2Proof.Tests
end

section
/-! PROOFS. The machine never stops (00_scope.md R8): of all events only a finalisation tick can stop it, and only
where `OP` is no command's opcode, which clause (c) of R24 rules out. -/

namespace Sys2Proof.Machine

/-- A busy block that meets R24 has a result to write, because its `OP` is a command's opcode (R24 c, R66). -/
theorem exists_finalResult_of_busy {b : Block} (hinv : b.Inv) (hb : b.busy = true) (r : Draw) :
    ∃ v, finalResult b r = some v := by
  rw [← Option.isSome_iff_exists, finalResult_isSome]
  exact decide_eq_true (hinv.busyHasCommand hb)

/-- A tick of a block that meets R24 answers a next state, whichever of its three forms it has. -/
theorem tick_eq_next_of_inv {s : State} (hinv : s.block.Inv) (r : Option Draw) : ∃ t, tick r s = .next t := by
  cases hb : s.block.busy with
  | false => exact ⟨_, tick_notBusy r hb⟩
  | true =>
    by_cases hc : s.block.count = 0
    · obtain ⟨v, hv⟩ := exists_finalResult_of_busy hinv hb (drawValue r s.draws)
      exact ⟨_, (tick_final r hb hc).trans (finalisationTick_of_result hv)⟩
    · exact ⟨_, tick_advancing r hb hc⟩

/-- Every event answers a next state where the block meets R24; only the tick uses that it does. -/
theorem performEvent_eq_next_of_inv {s : State} (hinv : s.block.Inv) (e : Event) :
    ∃ t, performEvent e s = .next t := by
  cases e with
  | reset => exact ⟨_, rfl⟩
  | hostRead i => exact ⟨_, rfl⟩
  | hostWrite i v => exact ⟨_, hostWrite_eq_next i v s⟩
  | tick r => exact tick_eq_next_of_inv hinv r
  | wait gaps => exact ⟨_, rfl⟩

/-- Settles O50: a step performs its next event on the same block, and a command is one gated write. -/
theorem machineNeverStops : Obligations.MachineNeverStops := by
  unfold Obligations.MachineNeverStops
  constructor
  · intro s hinv
    have hblock : (afterNextEvent s).block.Inv := hinv
    exact performEvent_eq_next_of_inv hblock (nextEvent s)
  · intro i s
    exact ⟨_, exec_eq_next i s⟩

end Sys2Proof.Machine
end

section
/-! PROOFS. What one step can do to the block, said once: `BlockStep` names the transitions of the nine registers
(10_state.md R11 to R20), and `blockStep_of_step` ties them to the machine's step. -/

namespace Sys2Proof.Machine

@[simp] theorem afterNextEvent_block (s : State) : (afterNextEvent s).block = s.block := rfl
@[simp] theorem afterNextEvent_draws (s : State) : (afterNextEvent s).draws = s.draws := rfl
@[simp] theorem hostRead_block (i : RegIndex) (s : State) : (hostRead i s).block = s.block := rfl
@[simp] theorem hostRead_draws (i : RegIndex) (s : State) : (hostRead i s).draws = s.draws := rfl

/-! ## The word written to `CMD` and R52's `decode_cmd` -/

/-- What an Idle block does with a command word, by the answer of `decode_cmd` to it (R52, R99, R141). -/
def answerTo : CmdDecode → Block → Block
  | .accept opc n => acceptCommand opc n
  | .illegalCommand => takeFault .illegalCommand
  | .invalidSlot => takeFault .invalidSlot

/-- What an Idle block does with the command a word decodes to, if any. -/
def performDecoded : Option Instr → Block → Block
  | some i => acceptanceOf i
  | none => takeFault .illegalCommand

theorem commandPerform_eq_performDecoded (c : Word) : commandPerform c = performDecoded (decode c) := by
  unfold commandPerform
  cases decode c <;> rfl

/-- A command without an operand is accepted where `ARG` is 0, and is an illegal word elsewhere (R49 d). -/
theorem performDecoded_withoutArg {i : Instr} {opc : Opcode} {n : Count}
    (hi : acceptanceOf i = acceptCommand opc n) (c : Word) :
    performDecoded (withoutArg c i) =
      answerTo (if argField c ≠ 0 then .illegalCommand else .accept opc n) := by
  by_cases ha : argField c = 0
  · rw [withoutArg, if_pos ha, if_neg (not_not.mpr ha)]
    exact hi
  · rw [withoutArg, if_neg ha, if_pos ha]
    rfl

/-- A command with a slot id is accepted up to slot 99, and raises `InvalidSlot` above (R50). -/
theorem acceptSlotCommand_eq_answerTo (opc : Opcode) (id : Count) :
    acceptSlotCommand opc id =
      answerTo (if id.toNat > Config.slotMax then .invalidSlot else .accept opc (id + 1)) := by
  funext b
  by_cases h : id.toNat ≤ Config.slotMax
  · rw [acceptSlotCommand, slotLegal, if_pos (decide_eq_true h), if_neg (Nat.not_lt.mpr h)]
    rfl
  · rw [acceptSlotCommand, if_neg (by simpa [slotLegal] using h), if_pos (Nat.not_le.mp h)]
    rfl

/-- The machine's two-part decoding does what R52's `decode_cmd` says, for every word. -/
theorem commandPerform_eq_answerTo (c : Word) : commandPerform c = answerTo (decodeCmd c) := by
  rw [commandPerform_eq_performDecoded]
  by_cases hz : z1Field c = 0 ∧ z0Field c = 0
  · rw [decode, if_pos hz, decodeCmd, if_neg (by tauto)]
    match (opcField c).toNat with
    | 1 => exact performDecoded_withoutArg rfl c
    | 2 => rfl
    | 3 => exact performDecoded_withoutArg rfl c
    | 4 => exact performDecoded_withoutArg rfl c
    | 5 => exact acceptSlotCommand_eq_answerTo 5 (argField c)
    | 6 => exact acceptSlotCommand_eq_answerTo 6 (argField c)
    | 0 | _ + 7 => rfl
  · rw [decode, if_neg hz, decodeCmd, if_pos (by tauto)]
    rfl

/-- What R52 accepts: the opcode is a command's, and the step count is within the bounds R24 (d), (e), (f) put on a
command in progress. -/
structure LegalAcceptance (opc : Opcode) (n : Count) : Prop where
  isCommand : 1 ≤ opc.toNat ∧ opc.toNat ≤ 6
  mask : opc = 3 ∨ opc = 4 → n = 0
  slot : opc = 5 ∨ opc = 6 → n.toNat ≤ 100
  advance : opc = 1 → n.toNat ≤ 1

theorem legalAcceptance_advance : LegalAcceptance 1 1 :=
  ⟨by decide, by decide, by decide, by decide⟩

theorem legalAcceptance_stream (n : Count) : LegalAcceptance 2 n :=
  ⟨by decide, fun h => absurd h (by decide), fun h => absurd h (by decide), fun h => absurd h (by decide)⟩

theorem legalAcceptance_mask {opc : Opcode} (h : opc = 3 ∨ opc = 4) : LegalAcceptance opc 0 := by
  rcases h with rfl | rfl <;> exact ⟨by decide, by decide, by decide, by decide⟩

/-- The step count `id + 1` of a slot id does not wrap and is at most 100 (R47). -/
theorem legalAcceptance_slot {opc : Opcode} {id : Count} (h : opc = 5 ∨ opc = 6) (hid : id.toNat ≤ 99) :
    LegalAcceptance opc (id + 1) := by
  have hn : (id + 1).toNat ≤ 100 := by
    rw [BitVec.toNat_add]
    exact (Nat.mod_le _ _).trans (Nat.succ_le_succ hid)
  rcases h with rfl | rfl <;>
    exact ⟨by decide, fun h => absurd h (by decide), fun _ => hn, fun h => absurd h (by decide)⟩

/-- A test of `decode_cmd` that rejects did not, where the answer is an acceptance. -/
theorem accept_of_ite {p : Prop} [Decidable p] {rejection answer : CmdDecode} {opc : Opcode} {n : Count}
    (h : (if p then rejection else answer) = .accept opc n) (hr : rejection ≠ .accept opc n) :
    ¬ p ∧ answer = .accept opc n := by
  by_cases hp : p
  · exact absurd ((if_pos hp).symm.trans h) hr
  · exact ⟨hp, (if_neg hp).symm.trans h⟩

theorem legalAcceptance_of_decodeCmd {c : Word} {opc : Opcode} {n : Count} (h : decodeCmd c = .accept opc n) :
    LegalAcceptance opc n := by
  rw [decodeCmd] at h
  obtain ⟨-, h⟩ := accept_of_ite h nofun
  match (opcField c).toNat, h with
  | 1, h =>
    obtain ⟨-, ⟨⟩⟩ := accept_of_ite h nofun
    exact legalAcceptance_advance
  | 2, rfl => exact legalAcceptance_stream (argField c)
  | 3, h =>
    obtain ⟨-, ⟨⟩⟩ := accept_of_ite h nofun
    exact legalAcceptance_mask (.inl rfl)
  | 4, h =>
    obtain ⟨-, ⟨⟩⟩ := accept_of_ite h nofun
    exact legalAcceptance_mask (.inr rfl)
  | 5, h =>
    obtain ⟨hid, ⟨⟩⟩ := accept_of_ite h nofun
    exact legalAcceptance_slot (.inl rfl) (Nat.not_lt.mp hid)
  | 6, h =>
    obtain ⟨hid, ⟨⟩⟩ := accept_of_ite h nofun
    exact legalAcceptance_slot (.inr rfl) (Nat.not_lt.mp hid)

/-! ## The transitions of the block -/

/-- The block's transitions under an event, each with the condition under which it happens. -/
inductive BlockStep : Event → Block → Block → Prop where
  /-- `Reset` (R156). -/
  | reset (b : Block) : BlockStep .reset b Block.reset
  /-- No register changes, which any event may come to: a read, a `WAIT`, an ignored write, a tick of a block that is
  not busy (R65, R95, R100, R142). -/
  | unchanged (e : Event) (b : Block) : BlockStep e b b
  /-- A write of `SEED` when Idle (R97). -/
  | writeSeed (v : Word) {b : Block} (hidle : b.Idle) : BlockStep (.hostWrite 0 v) b (writeSeed v b)
  /-- A write of `DIN` when Idle (R98). -/
  | writeDin (v : Word) {b : Block} (hidle : b.Idle) : BlockStep (.hostWrite 1 v) b (writeDin v b)
  /-- A command accepted when Idle (R99). -/
  | accepted {c : Word} {opc : Opcode} {n : Count} {b : Block} (hidle : b.Idle)
      (hdec : decodeCmd c = .accept opc n) : BlockStep (.hostWrite 2 c) b (acceptCommand opc n b)
  /-- A command turned away when Idle (R137, R138). -/
  | turnedAway (c : Word) (f : BlockFault) {b : Block} (hidle : b.Idle) :
      BlockStep (.hostWrite 2 c) b (takeFault f b)
  /-- A write of index 0, 1 or 2 while a command is in progress (R139). -/
  | busyWrite {i : RegIndex} (v : Word) {b : Block} (hi : i.toNat ≤ 2) (herr : b.err = 0) (hbusy : b.busy = true) :
      BlockStep (.hostWrite i v) b (takeFault .busyWrite b)
  /-- An advancing tick (R65). -/
  | advancing (r : Option Draw) {b : Block} (hbusy : b.busy = true) (hcount : b.count ≠ 0) :
      BlockStep (.tick r) b (advancingTick b)
  /-- A finalisation tick (R66). -/
  | finalised (r : Option Draw) (v : Word) {b : Block} (hbusy : b.busy = true) (hcount : b.count = 0) :
      BlockStep (.tick r) b (finishWith v b)

theorem blockStep_commandPerform (c : Word) {b : Block} (hidle : b.Idle) :
    BlockStep (.hostWrite 2 c) b (commandPerform c b) := by
  rw [commandPerform_eq_answerTo]
  cases hd : decodeCmd c with
  | accept opc n => exact .accepted hidle hd
  | illegalCommand => exact .turnedAway c .illegalCommand hidle
  | invalidSlot => exact .turnedAway c .invalidSlot hidle

theorem blockStep_writePerform {i : RegIndex} (hi : i.toNat ≤ 2) (v : Word) {b : Block} (hidle : b.Idle) :
    BlockStep (.hostWrite i v) b (writePerform i v b) := by
  have hi : i = 0 ∨ i = 1 ∨ i = 2 := by revert hi; revert i; decide
  rcases hi with rfl | rfl | rfl
  · exact .writeSeed v hidle
  · exact .writeDin v hidle
  · exact blockStep_commandPerform v hidle

theorem blockStep_gatedWrite {i : RegIndex} (hi : i.toNat ≤ 2) (v : Word) (b : Block) :
    BlockStep (.hostWrite i v) b (gatedWrite (writePerform i v) b) := by
  obtain ⟨-, h⟩ | ⟨herr, hbusy, h⟩ | ⟨hidle, h⟩ := gatedWrite_cases (writePerform i v) b
  · rw [h]; exact .unchanged _ b
  · rw [h]; exact .busyWrite v hi herr hbusy
  · rw [h]; exact blockStep_writePerform hi v hidle

/-- Every step of the machine is one of these transitions of its block, under the step's event. -/
theorem blockStep_of_step {s t : State} (h : step s = .next t) : BlockStep (nextEvent s) s.block t.block := by
  obtain ⟨hn, rfl⟩ | ⟨i, hn, rfl⟩ | ⟨gaps, hn, rfl⟩ | ⟨i, v, hn, rfl⟩ | ⟨r, hn, -, rfl⟩ | ⟨r, hn, hb, hc, rfl⟩ |
    ⟨r, v, hn, hb, hc, -, rfl⟩ := step_cases h <;> rw [hn]
  · exact .reset s.block
  · exact .unchanged _ s.block
  · rw [waitTurn_block]
    exact .unchanged _ s.block
  · by_cases hi : i.toNat ≤ 2
    · rw [if_pos hi]
      exact blockStep_gatedWrite hi v s.block
    · rw [if_neg hi]
      exact .unchanged _ s.block
  · exact .unchanged _ s.block
  · exact .advancing r hb hc
  · exact .finalised r v hb hc

end Sys2Proof.Machine
end

section
/-! PROOFS. The register invariants (10_state.md R24): each transition of the block keeps them, so they hold of every
state a run from reset reaches. -/

namespace Sys2Proof.Machine

theorem Block.Inv.err_eq_zero_of_busy {b : Block} (hinv : b.Inv) (hbusy : b.busy = true) : b.err = 0 := by
  by_contra herr
  obtain ⟨hb, -⟩ := hinv.faultedIsStopped herr
  simp [hb] at hbusy

theorem inv_reset : Block.reset.Inv :=
  ⟨by decide, by decide, by decide, by decide, by decide, by decide, by decide, by decide, by decide⟩

theorem inv_writeSeed {b : Block} (v : Word) (hinv : b.Inv) : (writeSeed v b).Inv := { hinv with }

theorem inv_writeDin {b : Block} (v : Word) (hinv : b.Inv) : (writeDin v b).Inv := { hinv with }

theorem faultCode_toNat_le (f : BlockFault) : (faultCode f).toNat ≤ 3 := by
  cases f <;> decide

theorem faultCode_ne_zero (f : BlockFault) : faultCode f ≠ 0 := by
  cases f <;> decide

/-- A fault stops the block, whatever it was doing: the clauses about `BUSY = 1`, `DONE = 1` and `ERR = 0` are empty. -/
theorem inv_takeFault (f : BlockFault) (b : Block) : (takeFault f b).Inv where
  notBusyAndDone := by simp
  faultedIsStopped := by simp
  busyHasCommand := by simp
  maskCount := by simp
  slotCount := by simp
  advanceCount := by simp
  idleCount _ herr := absurd herr (faultCode_ne_zero f)
  errCode := faultCode_toNat_le f
  doneHasCommand := by simp

theorem inv_acceptCommand {b : Block} {opc : Opcode} {n : Count} (hidle : b.Idle) (hlegal : LegalAcceptance opc n) :
    (acceptCommand opc n b).Inv where
  notBusyAndDone := by simp
  faultedIsStopped := by simp [hidle.2]
  busyHasCommand _ := hlegal.isCommand
  maskCount _ := hlegal.mask
  slotCount _ := hlegal.slot
  advanceCount _ := hlegal.advance
  idleCount := by simp
  errCode := by simp [hidle.2]
  doneHasCommand := by simp

theorem count_sub_one_toNat_le {n : BitVec 8} (hn : n ≠ 0) : (n - 1).toNat ≤ n.toNat := by
  bv_omega

/-- An advancing tick only lowers a step count that is not 0, so it keeps every bound on it. -/
theorem inv_advancingTick {b : Block} (hinv : b.Inv) (hbusy : b.busy = true) (hcount : b.count ≠ 0) :
    (advancingTick b).Inv :=
  { hinv with
    maskCount := fun _ hop => absurd (hinv.maskCount hbusy hop) hcount
    slotCount := fun _ hop => (count_sub_one_toNat_le hcount).trans (hinv.slotCount hbusy hop)
    advanceCount := fun _ hop => (count_sub_one_toNat_le hcount).trans (hinv.advanceCount hbusy hop)
    idleCount := fun hb => absurd (hbusy.symm.trans hb) (by decide) }

theorem inv_finishWith {b : Block} (v : Word) (hinv : b.Inv) (hbusy : b.busy = true) (hcount : b.count = 0) :
    (finishWith v b).Inv where
  notBusyAndDone := by simp
  faultedIsStopped herr := absurd (hinv.err_eq_zero_of_busy hbusy) herr
  busyHasCommand := by simp
  maskCount := by simp
  slotCount := by simp
  advanceCount := by simp
  idleCount _ _ := hcount
  errCode := hinv.errCode
  doneHasCommand _ := hinv.busyHasCommand hbusy

theorem BlockStep.keeps_inv {e : Event} {b b' : Block} (h : BlockStep e b b') (hinv : b.Inv) : b'.Inv := by
  cases h with
  | reset => exact inv_reset
  | unchanged => exact hinv
  | writeSeed v => exact inv_writeSeed v hinv
  | writeDin v => exact inv_writeDin v hinv
  | accepted hidle hdec => exact inv_acceptCommand hidle (legalAcceptance_of_decodeCmd hdec)
  | turnedAway c f => exact inv_takeFault f b
  | busyWrite => exact inv_takeFault .busyWrite b
  | advancing r hbusy hcount => exact inv_advancingTick hinv hbusy hcount
  | finalised r v hbusy hcount => exact inv_finishWith v hinv hbusy hcount

/-- Settles O48: a step is a transition of the block, and each transition keeps the nine clauses. -/
theorem stepKeepsRegisterInvariants : Obligations.StepKeepsRegisterInvariants := by
  unfold Obligations.StepKeepsRegisterInvariants
  intro s t hinv hstep
  exact (blockStep_of_step hstep).keeps_inv hinv

/-- Settles O47: every register is 0 after reset. -/
theorem resetMeetsRegisterInvariants : Obligations.ResetMeetsRegisterInvariants := inv_reset

/-- What every step keeps, every run keeps. -/
theorem run_keeps {P : State → Prop} (hP : ∀ s t, P s → step s = .next t → P t) {k : Nat} {s t : State}
    (hs : P s) (h : run k s = .next t) : P t := by
  induction k generalizing s with
  | zero =>
    cases h
    exact hs
  | succ k ih =>
    cases hstep : step s with
    | next u =>
      rw [run_succ k hstep] at h
      exact ih (hP s u hs hstep) h
    | fault r => simp [run, hstep] at h
    | refused r => simp [run, hstep] at h

theorem inv_of_reachable {s : State} (h : Reachable s) : s.block.Inv := by
  obtain ⟨es, k, hrun⟩ := h
  exact run_keeps (P := fun s => s.block.Inv) stepKeepsRegisterInvariants inv_reset hrun

/-- The block after `STREAM 3` and, with no tick between, a write of `SEED`: cut short with three steps to do (R139). -/
def streamCutShort : State where
  block := { Block.reset with count := 3, op := 2, err := 3 }
  events := []
  reads := []
  draws := 0

theorem reachable_streamCutShort : Reachable streamCutShort :=
  ⟨[.hostWrite 2 0x00000302, .hostWrite 0 9], 2, rfl⟩

/-- Settles O49: the invariant along a run from reset, and a `STREAM` that a `BusyWrite` cuts short. -/
theorem reachableStatesMeetRegisterInvariants : Obligations.ReachableStatesMeetRegisterInvariants := by
  unfold Obligations.ReachableStatesMeetRegisterInvariants
  exact ⟨fun s => inv_of_reachable, streamCutShort, reachable_streamCutShort, rfl, by decide⟩

end Sys2Proof.Machine
end

section
/-! PROOFS. Who changes what (10_state.md R11 to R19, R22): each register's and each flag's writers, read off the
transitions of the block, and the events that take a draw. -/

namespace Sys2Proof.Machine

variable {e : Event} {b b' : Block}

theorem BlockStep.seed_writer (h : BlockStep e b b') (he : e ≠ .reset) (hne : b'.seed ≠ b.seed) :
    b.Idle ∧ e = .hostWrite 0 b'.seed := by
  cases h with
  | reset => exact absurd rfl he
  | writeSeed v hidle => exact ⟨hidle, rfl⟩
  | _ => exact absurd rfl hne

theorem BlockStep.din_writer (h : BlockStep e b b') (he : e ≠ .reset) (hne : b'.din ≠ b.din) :
    b.Idle ∧ e = .hostWrite 1 b'.din := by
  cases h with
  | reset => exact absurd rfl he
  | writeDin v hidle => exact ⟨hidle, rfl⟩
  | _ => exact absurd rfl hne

theorem BlockStep.dout_writer (h : BlockStep e b b') (he : e ≠ .reset) (hne : b'.dout ≠ b.dout) :
    (∃ r, e = .tick r) ∧ b.busy = true ∧ b.count = 0 := by
  cases h with
  | reset => exact absurd rfl he
  | finalised r v hbusy hcount => exact ⟨⟨r, rfl⟩, hbusy, hcount⟩
  | _ => exact absurd rfl hne

theorem BlockStep.lfsr_count_writer (h : BlockStep e b b') (he : e ≠ .reset)
    (hne : b'.lfsr ≠ b.lfsr ∨ b'.count ≠ b.count) :
    ((∃ r, e = .tick r) ∧ b.busy = true ∧ b.count ≠ 0) ∨
    (b.Idle ∧ ∃ c opc n, e = .hostWrite 2 c ∧ decodeCmd c = .accept opc n) := by
  cases h with
  | reset => exact absurd rfl he
  | accepted hidle hdec => exact .inr ⟨hidle, _, _, _, rfl, hdec⟩
  | advancing r hbusy hcount => exact .inl ⟨⟨r, rfl⟩, hbusy, hcount⟩
  | _ => exact (not_and_or.mpr hne ⟨rfl, rfl⟩).elim

theorem BlockStep.op_writer (h : BlockStep e b b') (he : e ≠ .reset) (hne : b'.op ≠ b.op) :
    b.Idle ∧ ∃ c n, e = .hostWrite 2 c ∧ decodeCmd c = .accept b'.op n := by
  cases h with
  | reset => exact absurd rfl he
  | accepted hidle hdec => exact ⟨hidle, _, _, rfl, hdec⟩
  | _ => exact absurd rfl hne

/-- Settles O45: one lemma per register, each read off the transitions. -/
theorem eachRegisterHasItsWriters : Obligations.EachRegisterHasItsWriters := by
  unfold Obligations.EachRegisterHasItsWriters
  intro s t hstep he
  have h := blockStep_of_step hstep
  exact ⟨h.seed_writer he, h.din_writer he, h.dout_writer he, h.lfsr_count_writer he, h.op_writer he⟩

/-! ## `BUSY` and `DONE` (R18, R19) -/

theorem BlockStep.busy_setter (h : BlockStep e b b') (hb : b.busy = false) (hb' : b'.busy = true) :
    b.Idle ∧ ∃ c opc n, e = .hostWrite 2 c ∧ decodeCmd c = .accept opc n := by
  cases h with
  | accepted hidle hdec => exact ⟨hidle, _, _, _, rfl, hdec⟩
  | unchanged | writeSeed | writeDin | advancing => exact absurd (hb.symm.trans hb') (by decide)
  | reset | turnedAway | busyWrite | finalised => cases hb'

theorem BlockStep.busy_clearer (h : BlockStep e b b') (hb : b.busy = true) (hb' : b'.busy = false) :
    ((∃ r, e = .tick r) ∧ b.count = 0) ∨
    ((∃ i v, e = .hostWrite i v ∧ i.toNat ≤ 2) ∧ b'.err = 3) ∨ e = .reset := by
  cases h with
  | finalised r v _ hcount => exact .inl ⟨⟨r, rfl⟩, hcount⟩
  | busyWrite v hi => exact .inr (.inl ⟨⟨_, v, rfl, hi⟩, rfl⟩)
  | reset => exact .inr (.inr rfl)
  | unchanged | writeSeed | writeDin | advancing => exact absurd (hb.symm.trans hb') (by decide)
  | accepted => cases hb'
  | turnedAway c f hidle => exact absurd (hb.symm.trans hidle.1) (by decide)

theorem BlockStep.done_setter (h : BlockStep e b b') (hd : b.done = false) (hd' : b'.done = true) :
    (∃ r, e = .tick r) ∧ b.busy = true ∧ b.count = 0 := by
  cases h with
  | finalised r v hbusy hcount => exact ⟨⟨r, rfl⟩, hbusy, hcount⟩
  | unchanged | writeSeed | writeDin | advancing => exact absurd (hd.symm.trans hd') (by decide)
  | reset | accepted | turnedAway | busyWrite => cases hd'

theorem BlockStep.done_clearer (h : BlockStep e b b') (hd : b.done = true) (hd' : b'.done = false) :
    (b.Idle ∧ ∃ c opc n, e = .hostWrite 2 c ∧ decodeCmd c = .accept opc n) ∨
    (b.err = 0 ∧ b'.err ≠ 0) ∨ e = .reset := by
  cases h with
  | accepted hidle hdec => exact .inl ⟨hidle, _, _, _, rfl, hdec⟩
  | turnedAway c f hidle => exact .inr (.inl ⟨hidle.2, faultCode_ne_zero f⟩)
  | busyWrite v _ herr => exact .inr (.inl ⟨herr, faultCode_ne_zero .busyWrite⟩)
  | reset => exact .inr (.inr rfl)
  | unchanged | writeSeed | writeDin | advancing => exact absurd (hd.symm.trans hd') (by decide)
  | finalised => cases hd'

/-- A tick of a busy block is seen: an advancing tick lowers `COUNT`, a finalisation tick clears `BUSY`. -/
theorem tick_ne_self_of_busy (r : Option Draw) {s : State} (hbusy : s.block.busy = true) : tick r s ≠ .next s := by
  intro h
  by_cases hc : s.block.count = 0
  · rw [tick_final r hbusy hc, finalisationTick] at h
    split at h
    · next v _ =>
      injection h with h
      have hb : (finishWith v s.block).busy = s.block.busy := congrArg (·.block.busy) h
      simp [hbusy] at hb
    · cases h
  · rw [tick_advancing r hbusy hc] at h
    injection h with h
    have hcount : s.block.count - 1 = s.block.count := congrArg (·.block.count) h
    simp at hcount

theorem tick_eq_self_iff (r : Option Draw) (s : State) : tick r s = .next s ↔ s.block.busy = false := by
  refine ⟨fun h => ?_, tick_notBusy r⟩
  by_contra hb
  exact tick_ne_self_of_busy r (by simpa using hb) h

/-- Settles O46: each flag's setters and clearers are read off the transitions, and a tick of a busy block is seen. -/
theorem busyAndDoneHaveTheirWriters : Obligations.BusyAndDoneHaveTheirWriters := by
  unfold Obligations.BusyAndDoneHaveTheirWriters
  refine ⟨fun s t hstep => ?_, fun s r => tick_eq_self_iff r s, fun b => Block.Inv.err_eq_zero_of_busy⟩
  have h := blockStep_of_step hstep
  exact ⟨h.busy_setter, h.busy_clearer, h.done_setter, h.done_clearer⟩

/-! ## Draws (R22) -/

theorem takesDraw_iff (opc : Opcode) : takesDraw opc = true ↔ opc = 3 ∨ opc = 5 := by
  simp [takesDraw]

/-- Settles O29: of all that a step can do, only a finalisation tick touches the draw counter. -/
theorem drawTakenOnlyAtMaskInAndEncodeEnd : Obligations.DrawTakenOnlyAtMaskInAndEncodeEnd := by
  unfold Obligations.DrawTakenOnlyAtMaskInAndEncodeEnd
  intro s t hstep
  obtain ⟨hn, rfl⟩ | ⟨i, hn, rfl⟩ | ⟨gaps, hn, rfl⟩ | ⟨i, v, hn, rfl⟩ | ⟨r, hn, hb, rfl⟩ | ⟨r, hn, -, hc, rfl⟩ |
    ⟨r, v, hn, hb, hc, -, rfl⟩ := step_cases hstep
  · simp [hn]
  · simp [hn]
  · simp [hn, waitTurn_draws]
  · simp [hn]
  · simp [hb]
  · rw [if_neg fun ⟨_, _, hc', _⟩ => hc hc']
    rfl
  · show (if takesDraw s.block.op = true then s.draws + 1 else s.draws) = _
    by_cases hop : s.block.op = 3 ∨ s.block.op = 5
    · rw [if_pos ((takesDraw_iff _).mpr hop), if_pos ⟨⟨r, hn⟩, hb, hc, hop⟩]
    · rw [if_neg (mt (takesDraw_iff _).mp hop), if_neg fun ⟨_, _, _, hop'⟩ => hop hop']
      rfl

end Sys2Proof.Machine
end

section
/-! PROOFS. Reset and the word of `STATUS` (10_state.md R17, R25; 70_reset_and_hazards.md R156). -/

namespace Sys2Proof.Machine

theorem readReg_reset (r : Reg) : readReg Block.reset r = 0 := by
  cases r <;> rfl

/-- Settles O18: the step of a `Reset` puts `Block.reset` in place, of which every register reads 0. -/
theorem resetZeroesEveryPieceOfState : Obligations.ResetZeroesEveryPieceOfState := by
  unfold Obligations.ResetZeroesEveryPieceOfState
  refine ⟨fun s rest h => ?_, rfl⟩
  exact ⟨_, step_cons h, rfl, rfl, rfl, rfl, rfl, rfl, rfl, rfl, rfl, fun i => readReg_reset (regAt i), rfl, rfl, rfl⟩

theorem bool_eq_iff_toNat_eq (f g : Bool) : f = g ↔ f.toNat = g.toNat := by
  cases f <;> cases g <;> decide

theorem flagBit_toNat (f : Bool) : (flagBit f).toNat = f.toNat := by
  cases f <;> rfl

/-- `STATUS` as a number: no field of it runs over into the next (R17). -/
theorem statusWord_toNat (b : Block) :
    (statusWord b).toNat = b.op.toNat * 256 + b.err.toNat * 16 + b.done.toNat * 2 + b.busy.toNat := by
  have hop := b.op.isLt
  have herr := b.err.isLt
  have hdone := Bool.toNat_lt b.done
  have hbusy := Bool.toNat_lt b.busy
  have h256 : (256 : Word).toNat = 256 := rfl
  have h16 : (16 : Word).toNat = 16 := rfl
  have h2 : (2 : Word).toNat = 2 := rfl
  simp only [statusWord, BitVec.toNat_add, BitVec.toNat_mul, BitVec.truncate_eq_setWidth, BitVec.toNat_setWidth,
    flagBit_toNat, h256, h16, h2, Config.wordBits]
  omega

/-- The bits of `STATUS` by its value as a number: one bit, and a field of `n` bits. -/
theorem statusWord_getLsbD_iff {b : Block} {k : Nat} {f : Bool} :
    (statusWord b).getLsbD k = f ↔
      (b.op.toNat * 256 + b.err.toNat * 16 + b.done.toNat * 2 + b.busy.toNat) / 2 ^ k % 2 = f.toNat := by
  rw [bool_eq_iff_toNat_eq, BitVec.getLsbD, statusWord_toNat, Nat.toNat_testBit]

theorem statusWord_extractLsb'_iff {b : Block} {k n : Nat} {v : BitVec n} :
    (statusWord b).extractLsb' k n = v ↔
      (b.op.toNat * 256 + b.err.toNat * 16 + b.done.toNat * 2 + b.busy.toNat) / 2 ^ k % 2 ^ n = v.toNat := by
  rw [← BitVec.toNat_inj, BitVec.extractLsb'_toNat, statusWord_toNat, Nat.shiftRight_eq_div_pow]

/-- The fields of R17 are read off that number by division and remainder. -/
theorem statusWord_fields (b : Block) :
    (statusWord b).getLsbD 0 = b.busy ∧ (statusWord b).getLsbD 1 = b.done ∧
    (statusWord b).extractLsb' 2 2 = 0#2 ∧ (statusWord b).extractLsb' 4 4 = b.err ∧
    (statusWord b).extractLsb' 8 4 = b.op ∧ (statusWord b).extractLsb' 12 20 = 0#20 := by
  have hop := b.op.isLt
  have herr := b.err.isLt
  have hdone := Bool.toNat_lt b.done
  have hbusy := Bool.toNat_lt b.busy
  simp only [statusWord_getLsbD_iff, statusWord_extractLsb'_iff, BitVec.toNat_zero]
  omega

/-- Settles O20: the fields are read off the number `STATUS` is, and a write of index 3 is ignored (R100). -/
theorem statusWordHasItsFields : Obligations.StatusWordHasItsFields := by
  unfold Obligations.StatusWordHasItsFields
  refine ⟨statusWord_fields, fun s v rest h => ?_⟩
  rw [step_cons h]
  exact hostWrite_ignored (i := 3) v _ (by decide)

end Sys2Proof.Machine
end

section
/-! PROOFS. The bytes of a ciphertext word in the vault file (20_memory.md R35). -/

namespace Sys2Proof.Machine

/-- Neighbouring bytes of a word join to the wider field they make up, and the four of them to the word. -/
theorem bytesToWord_of_fields (w : Word) :
    bytesToWord (w.extractLsb' 24 8) (w.extractLsb' 16 8) (w.extractLsb' 8 8) (w.extractLsb' 0 8) = w := by
  rw [bytesToWord, BitVec.extractLsb'_append_extractLsb'_eq_extractLsb' (start₁ := 16) (len₁ := 8) rfl,
    BitVec.extractLsb'_append_extractLsb'_eq_extractLsb' (start₁ := 8) (len₁ := 8) rfl,
    BitVec.extractLsb'_append_extractLsb'_eq_extractLsb' (start₁ := 0) (len₁ := 8) rfl]
  exact BitVec.extractLsb'_eq_self

/-- The field of each byte lies in that byte's part of the joined word. -/
theorem wordToBytes_bytesToWord (a b c d : Byte) : wordToBytes (bytesToWord a b c d) = [a, b, c, d] := by
  have hfield (k : Nat) : (bytesToWord a b c d).extractLsb' k 8 =
    (a ++ b ++ c ++ d : BitVec (8 + 8 + 8 + 8)).extractLsb' k 8 := rfl
  simp (disch := decide) only [wordToBytes, hfield, BitVec.extractLsb'_append_eq_of_le,
    BitVec.extractLsb'_append_eq_of_add_le, Nat.reduceSub, BitVec.extractLsb'_eq_self]

/-- Settles O51: splitting and joining undo each other, both ways. -/
theorem ciphertextWordIsBigEndian : Obligations.CiphertextWordIsBigEndian := by
  unfold Obligations.CiphertextWordIsBigEndian
  exact ⟨fun w => ⟨_, _, _, _, rfl, bytesToWord_of_fields w, rfl, rfl, rfl, rfl⟩, wordToBytes_bytesToWord, by decide⟩

end Sys2Proof.Machine
end

section
/-! PROOFS. A finished result stays (20_memory.md R39 (c)): of the transitions of a block with `DONE = 1`, only those
of a command write and of `Reset` touch `DOUT` or `DONE`. -/

namespace Sys2Proof.Machine

/-- Every step but a turn of `WAIT` takes its event off the list and leaves the rest to come. -/
theorem step_events {s t : State} (h : step s = .next t) (hwait : ∀ gaps, nextEvent s ≠ .wait gaps) :
    t.events = s.events.tail := by
  obtain ⟨-, rfl⟩ | ⟨i, -, rfl⟩ | ⟨gaps, hn, -⟩ | ⟨i, v, -, rfl⟩ | ⟨r, -, -, rfl⟩ | ⟨r, -, -, -, rfl⟩ |
    ⟨r, v, -, -, -, -, rfl⟩ := step_cases h
  · rfl
  · rfl
  · exact absurd hn (hwait gaps)
  all_goals rfl

theorem step_eq_next_of_inv {s : State} (hinv : s.block.Inv) : ∃ t, step s = .next t :=
  performEvent_eq_next_of_inv (s := afterNextEvent s) hinv (nextEvent s)

/-- With `DONE = 1` the block is not busy (R24 a), so it has no tick and no `BusyWrite`. -/
theorem BlockStep.keeps_result {e : Event} {b b' : Block} (h : BlockStep e b b') (hinv : b.Inv)
    (hdone : b.done = true) (hreset : e ≠ .reset) (hcmd : ∀ v, e ≠ .hostWrite 2 v) :
    b'.dout = b.dout ∧ b'.done = true := by
  have hbusy : b.busy ≠ true := fun hb => hinv.notBusyAndDone ⟨hb, hdone⟩
  cases h with
  | reset => exact absurd rfl hreset
  | unchanged | writeSeed | writeDin => exact ⟨rfl, hdone⟩
  | accepted | turnedAway => exact absurd rfl (hcmd _)
  | busyWrite _ _ _ hb | advancing _ hb | finalised _ _ hb => exact absurd hb hbusy

/-- Settles O44, by induction on the list: each step keeps R24, `DOUT` and `DONE`. -/
theorem resultStaysWhileNoCommandIsWritten : Obligations.ResultStaysWhileNoCommandIsWritten := by
  unfold Obligations.ResultStaysWhileNoCommandIsWritten
  intro s es rest hinv hdone hev hes
  induction es generalizing s with
  | nil => exact ⟨s, run_zero s, hev, rfl, hdone⟩
  | cons e es ih =>
    obtain ⟨⟨hreset, hcmd, hwait⟩, hes⟩ := List.forall_mem_cons.mp hes
    have hn : nextEvent s = e := nextEvent_cons hev
    obtain ⟨t, hstep⟩ := step_eq_next_of_inv hinv
    have htail : t.events = es ++ rest := by
      rw [step_events hstep (hn ▸ hwait), hev]
      rfl
    obtain ⟨htdout, htdone⟩ := (hn ▸ blockStep_of_step hstep).keeps_result hinv hdone hreset hcmd
    obtain ⟨u, hrun, hurest, hudout, hudone⟩ :=
      ih t (stepKeepsRegisterInvariants s t hinv hstep) htdone htail hes
    exact ⟨u, (run_succ _ hstep).trans hrun, hurest, hudout.trans htdout, hudone⟩

end Sys2Proof.Machine
end

section
/-! PROOFS. A command from its write to its finalisation tick (40_keystream.md R69): the block after some of its
advancing ticks, and the run of a command under any schedule of quiet events. -/

namespace Sys2Proof.Machine

/-! ## The block after `k` advancing ticks -/

/-- The block after `k` advancing ticks (R65). -/
def afterTicks (k : Nat) (b : Block) : Block := advancingTick^[k] b

theorem afterTicks_zero (b : Block) : afterTicks 0 b = b := rfl

theorem afterTicks_succ (k : Nat) (b : Block) : afterTicks (k + 1) b = afterTicks k (advancingTick b) := rfl

/-- `k` advancing ticks apply `stream` to `LFSR`, take `k` off `COUNT`, and change nothing else. -/
theorem afterTicks_eq (k : Nat) (b : Block) :
    afterTicks k b = { b with lfsr := stream b.lfsr k, count := b.count - BitVec.ofNat Config.countBits k } := by
  induction k with
  | zero => simp [afterTicks_zero, stream]
  | succ k ih =>
    have hcount : b.count - BitVec.ofNat Config.countBits k - 1 = b.count - BitVec.ofNat Config.countBits (k + 1) := by
      rw [BitVec.ofNat_add, BitVec.sub_sub]
      rfl
    rw [afterTicks, Function.iterate_succ_apply', ← afterTicks, ih, advancingTick, hcount]
    rfl

section
variable (k : Nat) (b : Block)

@[simp] theorem afterTicks_seed : (afterTicks k b).seed = b.seed := by rw [afterTicks_eq]
@[simp] theorem afterTicks_din : (afterTicks k b).din = b.din := by rw [afterTicks_eq]
@[simp] theorem afterTicks_dout : (afterTicks k b).dout = b.dout := by rw [afterTicks_eq]
@[simp] theorem afterTicks_lfsr : (afterTicks k b).lfsr = stream b.lfsr k := by rw [afterTicks_eq]
@[simp] theorem afterTicks_count : (afterTicks k b).count = b.count - BitVec.ofNat Config.countBits k := by
  rw [afterTicks_eq]
@[simp] theorem afterTicks_op : (afterTicks k b).op = b.op := by rw [afterTicks_eq]
@[simp] theorem afterTicks_busy : (afterTicks k b).busy = b.busy := by rw [afterTicks_eq]
@[simp] theorem afterTicks_done : (afterTicks k b).done = b.done := by rw [afterTicks_eq]
@[simp] theorem afterTicks_err : (afterTicks k b).err = b.err := by rw [afterTicks_eq]

end

/-! ## Single steps of a command -/

/-- The step of a command word written to an Idle block is `decode_cmd`'s answer to it (R52, R99). -/
theorem step_command {s : State} {c : Word} {rest : List Event} (hidle : s.block.Idle)
    (hev : s.events = .hostWrite 2 c :: rest) :
    step s = .next (State.withBlock { s with events := rest } (answerTo (decodeCmd c) s.block)) := by
  rw [step_cons hev, ← commandPerform_eq_answerTo, ← gatedWrite_idle (commandPerform c) hidle]
  exact hostWrite_eq_next 2 c _

/-- A quiet event that is no tick leaves the block and the draws as they were. -/
theorem step_quiet_of_not_tick {s : State} {e : Event} {rest : List Event} (hev : s.events = e :: rest)
    (hq : e.quiet = true) (htick : e.isTick = false) :
    ∃ t, step s = .next t ∧ t.block = s.block ∧ t.events = rest ∧ t.draws = s.draws := by
  rw [step_cons hev]
  cases e with
  | hostRead i => exact ⟨_, rfl, rfl, rfl, rfl⟩
  | hostWrite i v => exact ⟨_, hostWrite_ignored v _ (of_decide_eq_true hq), rfl, rfl, rfl⟩
  | tick => cases htick
  | reset | wait => cases hq

theorem step_advancing {s : State} {r : Option Draw} {rest : List Event} (hev : s.events = .tick r :: rest)
    (hbusy : s.block.busy = true) (hcount : s.block.count ≠ 0) :
    step s = .next (State.withBlock { s with events := rest } (advancingTick s.block)) := by
  rw [step_cons hev]
  exact tick_advancing r hbusy hcount

theorem step_final {s : State} {r : Option Draw} {v : Word} {rest : List Event} (hev : s.events = .tick r :: rest)
    (hbusy : s.block.busy = true) (hcount : s.block.count = 0)
    (hv : finalResult s.block (drawValue r s.draws) = some v) :
    step s = .next { s with
      block := finishWith v s.block
      events := rest
      draws := if takesDraw s.block.op then s.draws + 1 else s.draws } := by
  rw [step_cons hev]
  exact (tick_final (s := { s with events := rest }) r hbusy hcount).trans (finalisationTick_of_result hv)

/-! ## Runs of a command -/

theorem count_sub_one_toNat {n : BitVec 8} (hn : n ≠ 0) : (n - 1).toNat = n.toNat - 1 := by
  bv_omega

theorem tickCount_cons (e : Event) (es : List Event) :
    tickCount (e :: es) = tickCount es + if e.isTick then 1 else 0 :=
  List.countP_cons

theorem isTick_iff (e : Event) : e.isTick = true ↔ ∃ r, e = .tick r := by
  cases e <;> simp [Event.isTick]

/-- Under a schedule of quiet events with at most `COUNT` ticks, a busy block does those ticks, which are advancing
ones, and nothing else happens to it. -/
theorem run_quiet {s : State} {es rest : List Event} (hev : s.events = es ++ rest) (hbusy : s.block.busy = true)
    (hq : ∀ e ∈ es, e.quiet = true) (hticks : tickCount es ≤ s.block.count.toNat) :
    ∃ u, run es.length s = .next u ∧ u.block = afterTicks (tickCount es) s.block ∧ u.events = rest ∧
      u.draws = s.draws := by
  induction es generalizing s with
  | nil => exact ⟨s, run_zero s, rfl, hev, rfl⟩
  | cons e es ih =>
    obtain ⟨hqe, hqs⟩ := List.forall_mem_cons.mp hq
    rw [tickCount_cons] at hticks ⊢
    cases htick : e.isTick with
    | false =>
      simp only [htick, Bool.false_eq_true, if_false, Nat.add_zero] at hticks ⊢
      obtain ⟨t, hstep, htblock, htev, htdraws⟩ := step_quiet_of_not_tick hev hqe htick
      rw [← htblock] at hbusy hticks
      obtain ⟨u, hrun, hublock, huev, hudraws⟩ := ih htev hbusy hqs hticks
      exact ⟨u, (run_succ _ hstep).trans hrun, htblock ▸ hublock, huev, hudraws.trans htdraws⟩
    | true =>
      simp only [htick, if_true] at hticks ⊢
      obtain ⟨r, rfl⟩ := (isTick_iff e).mp htick
      have hcount : s.block.count ≠ 0 := fun h => by simp [h] at hticks
      have hticks' : tickCount es ≤ (advancingTick s.block).count.toNat := by
        rw [advancingTick_count, count_sub_one_toNat hcount]
        omega
      obtain ⟨u, hrun, hu⟩ := ih (s := State.withBlock { s with events := es ++ rest } (advancingTick s.block))
        rfl hbusy hqs hticks'
      exact ⟨u, (run_succ _ (step_advancing hev hbusy hcount)).trans hrun, hu⟩

/-- A command accepted with step count `n` finishes with the tick after `n` ticks, and the value it writes is
`finalResult` of the accepted block after those (R66, R69). -/
theorem run_command {s : State} {c : Word} {opc : Opcode} {n : Count} {r : Option Draw} {es rest : List Event}
    (hidle : s.block.Idle) (hdec : decodeCmd c = .accept opc n) (hq : ∀ e ∈ es, e.quiet = true)
    (hticks : tickCount es = n.toNat) (hev : s.events = .hostWrite 2 c :: (es ++ .tick r :: rest)) :
    ∃ u v, run (es.length + 2) s = .next u ∧
      finalResult (afterTicks n.toNat (acceptCommand opc n s.block)) (drawValue r s.draws) = some v ∧
      u.block = finishWith v (afterTicks n.toNat (acceptCommand opc n s.block)) ∧ u.events = rest ∧
      u.draws = if takesDraw opc then s.draws + 1 else s.draws := by
  have haccept := step_command hidle hev
  rw [hdec] at haccept
  obtain ⟨t, hrun, htblock, htev, htdraws⟩ :=
    run_quiet (s := State.withBlock { s with events := es ++ .tick r :: rest } (acceptCommand opc n s.block))
      rfl rfl hq hticks.le
  rw [hticks, withBlock_block] at htblock
  obtain ⟨v, hv⟩ : ∃ v, finalResult t.block (drawValue r t.draws) = some v := by
    rw [← Option.isSome_iff_exists, finalResult_isSome, htblock]
    simpa using (legalAcceptance_of_decodeCmd hdec).isCommand
  have hfinal := step_final htev (by simp [htblock]) (by simp [htblock]) hv
  have hrunAll := (run_succ _ haccept).trans ((run_add es.length 1 hrun).trans (run_succ 0 hfinal))
  refine ⟨_, v, hrunAll, ?_, congrArg (finishWith v) htblock, rfl, ?_⟩
  · rw [← htblock, ← hv, htdraws]
    rfl
  · simp [htblock, htdraws]

end Sys2Proof.Machine
end

section
/-! PROOFS. A command's result depends on its operands and its draw only (20_memory.md R41). -/

namespace Sys2Proof.Machine

theorem loadsLfsr_iff (opc : Opcode) :
    loadsLfsr opc = true ↔ opc.toNat = 1 ∨ opc.toNat = 2 ∨ opc.toNat = 5 ∨ opc.toNat = 6 := by
  revert opc
  decide

/-- The formulas of R66 read `OP`, `DIN`, the draw, and `LFSR` only where acceptance loaded it from `SEED`. -/
theorem finalResult_congr {b₁ b₂ : Block} (r : Draw) (hop : b₁.op = b₂.op) (hdin : b₁.din = b₂.din)
    (hlfsr : loadsLfsr b₁.op = true → b₁.lfsr = b₂.lfsr) : finalResult b₁ r = finalResult b₂ r := by
  rw [loadsLfsr_iff] at hlfsr
  unfold finalResult
  rw [← hop]
  split
  case h_1 h => exact congrArg some (hlfsr (by omega))
  case h_2 h => exact congrArg some (hlfsr (by omega))
  case h_3 => rw [resultMaskIn, hdin, resultMaskIn]
  case h_4 => rw [resultMaskOut, hdin, resultMaskOut]
  case h_5 h => rw [resultEncode, hdin, hlfsr (by omega), resultEncode]
  case h_6 h => rw [resultDecode, hdin, hlfsr (by omega), resultDecode]
  case h_7 => rfl

/-- Settles O40: at the finalisation tick the two machines agree on all that the formulas of R66 read. -/
theorem resultDependsOnlyOnOperandsAndDraw : Obligations.ResultDependsOnlyOnOperandsAndDraw := by
  unfold Obligations.ResultDependsOnlyOnOperandsAndDraw
  intro s₁ s₂ u₁ u₂ c opc n r es₁ es₂ rest₁ rest₂ hidle₁ hidle₂ hseed hdin hdec hq₁ hq₂ ht₁ ht₂ hev₁ hev₂ hrun₁ hrun₂
  obtain ⟨w₁, v₁, hw₁, hv₁, hblock₁, -⟩ := run_command hidle₁ hdec hq₁ ht₁ hev₁
  obtain ⟨w₂, v₂, hw₂, hv₂, hblock₂, -⟩ := run_command hidle₂ hdec hq₂ ht₂ hev₂
  obtain rfl : u₁ = w₁ := by simpa [hrun₁] using hw₁
  obtain rfl : u₂ = w₂ := by simpa [hrun₂] using hw₂
  have hresult : finalResult (afterTicks n.toNat (acceptCommand opc n s₁.block)) r =
      finalResult (afterTicks n.toNat (acceptCommand opc n s₂.block)) r := by
    apply finalResult_congr
    · simp
    · simpa using hdin
    · intro hloads
      have hloads : loadsLfsr opc = true := by simpa using hloads
      simp [hloads, hseed]
  have hv : v₁ = v₂ := Option.some.inj (hv₁.symm.trans (hresult.trans hv₂))
  rw [hblock₁, hblock₂, finishWith_dout, finishWith_dout, hv]

end Sys2Proof.Machine
end

section
/-! PROOFS. The command word (30_encoding.md R45 to R48): its fields as numbers, the word with given fields, and the
decoder read both ways. -/

namespace Sys2Proof

/-! ## The fields of a word as numbers (R46) -/

theorem z1Field_toNat (c : Word) : (z1Field c).toNat = c.toNat / 65536 := by
  have hc := word_toNat_lt c
  rw [z1Field, BitVec.extractLsb'_toNat, Nat.shiftRight_eq_div_pow]
  omega

theorem argField_toNat (c : Word) : (argField c).toNat = c.toNat / 256 % 256 := by
  rw [argField, BitVec.extractLsb'_toNat, Nat.shiftRight_eq_div_pow, Config.countBits]

theorem z0Field_toNat (c : Word) : (z0Field c).toNat = c.toNat / 16 % 16 := by
  rw [z0Field, BitVec.extractLsb'_toNat, Nat.shiftRight_eq_div_pow]

theorem opcField_toNat (c : Word) : (opcField c).toNat = c.toNat % 16 := by
  rw [opcField, BitVec.extractLsb'_toNat, Nat.shiftRight_eq_div_pow, Nat.pow_zero, Nat.div_one]

theorem field_eq_zero_iff {w : Nat} (x : BitVec w) : x = 0 ↔ x.toNat = 0 :=
  BitVec.toNat_inj.symm

theorem word_eq_sum_of_fields (c : Word) : c.toNat =
    (z1Field c).toNat * 65536 + (argField c).toNat * 256 + (z0Field c).toNat * 16 + (opcField c).toNat := by
  rw [z1Field_toNat, argField_toNat, z0Field_toNat, opcField_toNat]
  omega

/-- Joining a field below a word shifts the word by the field's width. -/
theorem toNat_append_field {v w : Nat} (x : BitVec v) (y : BitVec w) :
    (x ++ y).toNat = x.toNat * 2 ^ w + y.toNat := by
  rw [BitVec.toNat_append, Nat.shiftLeft_eq, mul_comm, Nat.two_pow_add_eq_or_of_lt y.isLt]

theorem commandWord_toNat (arg : Count) (opc : Opcode) :
    (commandWord arg opc).toNat = arg.toNat * 256 + opc.toNat := by
  simp only [commandWord, toNat_append_field, BitVec.toNat_ofNat]
  omega

/-- A word has the given operand and opcode and zero reserved fields exactly when its four fields say so. -/
theorem commandWord_eq_iff {arg : Count} {opc : Opcode} {c : Word} :
    commandWord arg opc = c ↔ (z1Field c = 0 ∧ z0Field c = 0) ∧ argField c = arg ∧ opcField c = opc := by
  have harg := count_toNat_lt arg
  have hopc : opc.toNat < 16 := opc.isLt
  have hc := word_toNat_lt c
  simp only [field_eq_zero_iff, commandWord_toNat, z1Field_toNat, z0Field_toNat, argField_toNat, opcField_toNat,
    ← BitVec.toNat_inj (x := argField c), ← BitVec.toNat_inj (x := opcField c), ← BitVec.toNat_inj (y := c)]
  omega

/-- Settles O15: the fields are the word's digits, and the encoder writes no reserved one. -/
theorem commandWordIsItsFields : Obligations.CommandWordIsItsFields := by
  unfold Obligations.CommandWordIsItsFields
  exact ⟨word_eq_sum_of_fields, fun i => commandWord_toNat (argOf i) (opcodeOf i)⟩

/-! ## The decoder, read both ways -/

theorem withoutArg_eq_some_iff {c : Word} {i j : Instr} : withoutArg c i = some j ↔ argField c = 0 ∧ i = j := by
  rw [withoutArg, Option.ite_none_right_eq_some, Option.some.injEq]

/-- A word decodes to a command only with zero reserved fields and the command's own operand and opcode. -/
theorem fields_of_decode {c : Word} {i : Instr} (h : decode c = some i) :
    (z1Field c = 0 ∧ z0Field c = 0) ∧ argField c = argOf i ∧ opcField c = opcodeOf i := by
  rw [decode, Option.ite_none_right_eq_some] at h
  obtain ⟨hz, h⟩ := h
  refine ⟨hz, ?_⟩
  match hopc : (opcField c).toNat, h with
  | 1, h | 3, h | 4, h =>
    obtain ⟨harg, rfl⟩ := withoutArg_eq_some_iff.mp h
    exact ⟨harg, BitVec.eq_of_toNat_eq hopc⟩
  | 2, rfl | 5, rfl | 6, rfl => exact ⟨rfl, BitVec.eq_of_toNat_eq hopc⟩

/-- The four fields of a command's word determine the command. -/
theorem decode_of_fields {c : Word} {i : Instr} (hz : z1Field c = 0 ∧ z0Field c = 0) (harg : argField c = argOf i)
    (hopc : opcField c = opcodeOf i) : decode c = some i := by
  rw [decode, if_pos hz, hopc]
  cases i with
  | advance | maskIn | maskOut => exact withoutArg_eq_some_iff.mpr ⟨harg, rfl⟩
  | stream steps => exact congrArg (some ∘ Instr.stream) harg
  | encode id => exact congrArg (some ∘ Instr.encode) harg
  | decode id => exact congrArg (some ∘ Instr.decode) harg

/-- Settles O12: each side says the same of the word's four fields. -/
theorem wordDecodesExactlyToWhatEncodesIt : Obligations.WordDecodesExactlyToWhatEncodesIt := by
  unfold Obligations.WordDecodesExactlyToWhatEncodesIt
  intro c i
  rw [encode, commandWord_eq_iff]
  exact ⟨fields_of_decode, fun ⟨hz, harg, hopc⟩ => decode_of_fields hz harg hopc⟩

/-- Settles O16, by running the decoder on the eight words. -/
theorem sampleWordsDecode : Obligations.SampleWordsDecode := by
  unfold Obligations.SampleWordsDecode
  decide

/-! ## Rows of the opcode table (R48) -/

/-- The mask of a row without operand keeps every bit. -/
theorem and_wholeMask (c : Word) : c &&& 0xFFFFFFFF#32 = c := BitVec.and_allOnes

/-- A row without operand selects the one word of its command. -/
theorem wholeMask_selects_iff {c : Word} (i : Instr) : c &&& 0xFFFFFFFF#32 = encode i ↔ decode c = some i := by
  rw [and_wholeMask, wordDecodesExactlyToWhatEncodesIt, eq_comm]

/-- The mask of a row with operand clears `ARG` and keeps the other three fields. -/
theorem and_operandMask (c : Word) : c &&& 0xFFFF00FF#32 = z1Field c ++ 0#8 ++ z0Field c ++ opcField c := by
  apply BitVec.eq_of_getLsbD_eq
  intro k hk
  simp only [z1Field, z0Field, opcField, BitVec.getLsbD_and, BitVec.getLsbD_append, BitVec.getLsbD_extractLsb']
  interval_cases k <;> simp

/-- A row with operand selects the words of its opcode with zero reserved fields, whatever their `ARG`. -/
theorem operandMask_selects_iff {c : Word} (opc : Opcode) :
    c &&& 0xFFFF00FF#32 = opc.zeroExtend 32 ↔ (z1Field c = 0 ∧ z0Field c = 0) ∧ opcField c = opc := by
  have hopc : opc.toNat < 16 := opc.isLt
  have hfield : (opcField c).toNat < 16 := (opcField c).isLt
  rw [and_operandMask]
  rw [field_eq_zero_iff, field_eq_zero_iff]
  simp only [← BitVec.toNat_inj, toNat_append_field, BitVec.truncate_eq_setWidth, BitVec.toNat_setWidth,
    BitVec.toNat_ofNat]
  omega

/-- The row of a command with an operand selects exactly the words that decode to that command, for some operand. -/
theorem operandMask_selects_iff_decode {c : Word} (command : Count → Instr) (opc : Opcode)
    (hopc : ∀ arg, opcodeOf (command arg) = opc) (harg : ∀ arg, argOf (command arg) = arg) :
    c &&& 0xFFFF00FF#32 = opc.zeroExtend 32 ↔ ∃ arg, decode c = some (command arg) := by
  rw [operandMask_selects_iff]
  constructor
  · rintro ⟨hz, h⟩
    exact ⟨argField c, decode_of_fields hz (harg _).symm (h.trans (hopc _).symm)⟩
  · rintro ⟨arg, h⟩
    obtain ⟨hz, -, h⟩ := fields_of_decode h
    exact ⟨hz, h.trans (hopc arg)⟩

/-- Settles O13: a row without operand selects its command's word, a row with one the words of its opcode. -/
theorem decoderFollowsMaskMatchTable : Obligations.DecoderFollowsMaskMatchTable := by
  unfold Obligations.DecoderFollowsMaskMatchTable
  intro c
  exact ⟨wholeMask_selects_iff .advance, operandMask_selects_iff_decode .stream 2 (fun _ => rfl) (fun _ => rfl),
    wholeMask_selects_iff .maskIn, wholeMask_selects_iff .maskOut,
    operandMask_selects_iff_decode .encode 5 (fun _ => rfl) (fun _ => rfl),
    operandMask_selects_iff_decode .decode 6 (fun _ => rfl) (fun _ => rfl),
    fun i h => (fields_of_decode h).2.1⟩

end Sys2Proof
end

section
/-! PROOFS. The answers of `decode_cmd` (30_encoding.md R49, R50, R52) and the count of accepted words. -/

namespace Sys2Proof

/-- The condition that R49, R50 and R52 put on the fields of a word for each answer. -/
def AnswerIs (z1 arg z0 opc : Nat) : CmdDecode → Prop
  | .illegalCommand => z1 ≠ 0 ∨ z0 ≠ 0 ∨ opc = 0 ∨ 7 ≤ opc ∨ ((opc = 1 ∨ opc = 3 ∨ opc = 4) ∧ arg ≠ 0)
  | .invalidSlot => z1 = 0 ∧ z0 = 0 ∧ (opc = 5 ∨ opc = 6) ∧ 100 ≤ arg
  | .accept o n => z1 = 0 ∧ z0 = 0 ∧ o.toNat = opc ∧
      ((opc = 1 ∧ arg = 0 ∧ n.toNat = 1) ∨ (opc = 2 ∧ n.toNat = arg) ∨
       ((opc = 3 ∨ opc = 4) ∧ arg = 0 ∧ n.toNat = 0) ∨
       ((opc = 5 ∨ opc = 6) ∧ arg ≤ 99 ∧ n.toNat = arg + 1))

/-- The conditions exclude each other, and an accepted word's fields give its opcode and step count. -/
theorem answerIs_unique {z1 arg z0 opc : Nat} {a b : CmdDecode} (ha : AnswerIs z1 arg z0 opc a)
    (hb : AnswerIs z1 arg z0 opc b) : a = b := by
  cases a <;> cases b <;> simp only [AnswerIs] at ha hb
  case accept.accept o n o' n' =>
    obtain rfl : o = o' := BitVec.eq_of_toNat_eq (by omega)
    obtain rfl : n = n' := BitVec.eq_of_toNat_eq (by omega)
    rfl
  case illegalCommand.illegalCommand => rfl
  case invalidSlot.invalidSlot => rfl
  all_goals omega

/-- The step count `id + 1` of a legal slot id does not wrap (R47). -/
theorem slot_add_one_toNat {id : Count} (hid : id.toNat ≤ 99) : (id + 1).toNat = id.toNat + 1 := by
  rw [BitVec.toNat_add]
  exact Nat.mod_eq_of_lt (Nat.lt_of_le_of_lt (Nat.succ_le_succ hid) (by decide))

theorem answerIs_decodeCmd (c : Word) :
    AnswerIs (z1Field c).toNat (argField c).toNat (z0Field c).toNat (opcField c).toNat (decodeCmd c) := by
  by_cases hz : z1Field c ≠ 0 ∨ z0Field c ≠ 0
  · rw [decodeCmd, if_pos hz]
    simp only [ne_eq, field_eq_zero_iff] at hz
    simp only [AnswerIs]
    omega
  · rw [decodeCmd, if_neg hz]
    simp only [not_or, ne_eq, not_not] at hz
    obtain ⟨hz1, hz0⟩ := hz
    match (opcField c).toNat with
    | 1 | 3 | 4 =>
      refine iteInduction (motive := AnswerIs _ _ _ _) (fun harg => ?_) (fun harg => ?_)
      · exact .inr (.inr (.inr (.inr ⟨by decide, (field_eq_zero_iff _).not.mp harg⟩)))
      · simp [AnswerIs, hz1, hz0, not_not.mp harg]
    | 2 => simp [AnswerIs, hz1, hz0]
    | 5 | 6 =>
      refine iteInduction (motive := AnswerIs _ _ _ _) (fun hid => ?_) (fun hid => ?_)
      · have hid : 100 ≤ (argField c).toNat := hid
        simpa [AnswerIs, hz1, hz0] using hid
      · have hid : (argField c).toNat ≤ 99 := Nat.not_lt.mp hid
        simpa [AnswerIs, hz1, hz0] using And.intro hid (slot_add_one_toNat hid)
    | 0 | _ + 7 => simp [AnswerIs]

/-- `decode_cmd` gives an answer exactly under that answer's condition. -/
theorem decodeCmd_eq_iff {c : Word} {a : CmdDecode} : decodeCmd c = a ↔
    AnswerIs (c.toNat / 65536) (c.toNat / 256 % 256) (c.toNat / 16 % 16) (c.toNat % 16) a := by
  have h := answerIs_decodeCmd c
  rw [z1Field_toNat, argField_toNat, z0Field_toNat, opcField_toNat] at h
  exact ⟨fun ha => ha ▸ h, answerIs_unique h⟩

/-! ## How many words are accepted -/

/-- How many `ARG` values an opcode is accepted with: those from 0 up (R52). -/
def operandCount : Nat → Nat
  | 1 | 3 | 4 => 1
  | 2 => 256
  | 5 | 6 => 100
  | _ => 0

theorem lt_operandCount_iff {arg opc : Nat} : arg < operandCount opc ↔
    ((opc = 1 ∨ opc = 3 ∨ opc = 4) ∧ arg = 0) ∨ (opc = 2 ∧ arg < 256) ∨ ((opc = 5 ∨ opc = 6) ∧ arg ≤ 99) := by
  match opc with
  | 1 | 2 | 3 | 4 => simp [operandCount]
  | 5 | 6 => simp [operandCount, Nat.lt_succ_iff]
  | 0 | _ + 7 => simp [operandCount]

/-- A word is accepted where its reserved fields are zero and its `ARG` is one its opcode is accepted with. -/
theorem accepted_iff {c : Word} : (∃ o n, decodeCmd c = .accept o n) ↔
    c.toNat / 65536 = 0 ∧ c.toNat / 16 % 16 = 0 ∧ c.toNat / 256 % 256 < operandCount (c.toNat % 16) := by
  have h := decodeCmd_eq_iff.mp (rfl : decodeCmd c = decodeCmd c)
  rw [lt_operandCount_iff]
  cases hd : decodeCmd c with
  | accept o n =>
    rw [hd, AnswerIs] at h
    exact iff_of_true ⟨o, n, rfl⟩ (by omega)
  | illegalCommand | invalidSlot =>
    rw [hd, AnswerIs] at h
    exact iff_of_false nofun (by omega)

/-- The words R52 accepts: for each opcode, those of its operands. -/
def acceptedWords : Finset Word :=
  ((Finset.range 16).sigma fun opc => Finset.range (operandCount opc)).image fun p =>
    BitVec.ofNat Config.wordBits (p.2 * 256 + p.1)

theorem mem_acceptedWords {c : Word} : c ∈ acceptedWords ↔
    ∃ opc arg, (opc < 16 ∧ arg < operandCount opc) ∧ BitVec.ofNat Config.wordBits (arg * 256 + opc) = c := by
  simp only [acceptedWords, Finset.mem_image, Finset.mem_sigma, Finset.mem_range, Sigma.exists]

theorem mem_acceptedWords_iff {c : Word} : c ∈ acceptedWords ↔ ∃ o n, decodeCmd c = .accept o n := by
  rw [mem_acceptedWords, accepted_iff]
  constructor
  · rintro ⟨opc, arg, ⟨hopc, harg⟩, rfl⟩
    have hlt := lt_operandCount_iff.mp harg
    have hword : (arg * 256 + opc) % 4294967296 = arg * 256 + opc := Nat.mod_eq_of_lt (by omega)
    have hopcField : (arg * 256 + opc) % 16 = opc := by omega
    have hargField : (arg * 256 + opc) / 256 % 256 = arg := by omega
    rw [word_ofNat_toNat, hword, hopcField, hargField]
    exact ⟨by omega, by omega, harg⟩
  · rintro ⟨hz1, hz0, harg⟩
    refine ⟨c.toNat % 16, c.toNat / 256 % 256, ⟨Nat.mod_lt _ (by decide), harg⟩, BitVec.eq_of_toNat_eq ?_⟩
    rw [word_ofNat_toNat]
    omega

/-- The count of R52: `1 + 256 + 1 + 1 + 100 + 100`. -/
theorem card_acceptedWords : acceptedWords.card = 459 := by
  rw [acceptedWords, Finset.card_image_of_injOn, Finset.card_sigma]
  · simp only [Finset.card_range]
    decide
  · rintro ⟨opc, arg⟩ hp ⟨opc', arg'⟩ hp' h
    simp only [Finset.mem_coe, Finset.mem_sigma, Finset.mem_range, lt_operandCount_iff] at hp hp'
    have h := congrArg BitVec.toNat h
    simp only [word_ofNat_toNat] at h
    obtain rfl : opc = opc' := by omega
    obtain rfl : arg = arg' := by omega
    rfl

/-- Settles O14: the conditions of R49, R50 and R52 decide the answer, and the accepted words are counted by opcode. -/
theorem commandWordsAreClassified : Obligations.CommandWordsAreClassified := by
  unfold Obligations.CommandWordsAreClassified
  refine ⟨fun c => ⟨decodeCmd_eq_iff, decodeCmd_eq_iff, fun o n => decodeCmd_eq_iff⟩, ?_⟩
  simp only [← mem_acceptedWords_iff]
  exact (Set.ncard_coe_finset acceptedWords).trans card_acceptedWords

end Sys2Proof
end

section
/-! PROOFS. The words of the six mnemonic lines (30_encoding.md R53). -/

namespace Sys2Proof.Machine

/-- A command's line writes its operand and its opcode, as one number, to index 2. -/
theorem commandLine_eq (i : Instr) : commandLine i =
    .hostWrite 2 (BitVec.ofNat Config.wordBits ((argOf i).toNat * 256 + (opcodeOf i).toNat)) := by
  rw [← commandWord_toNat, BitVec.ofNat_toNat, BitVec.setWidth_eq]
  rfl

/-- The line of a command with an operand, where the assembler takes the operand up to `bound`. -/
theorem operandLine_eq (command : Count → Instr) (opc : Nat) (hopc : ∀ arg, (opcodeOf (command arg)).toNat = opc)
    (harg : ∀ arg, argOf (command arg) = arg) {bound : Nat} (hbound : bound ≤ 255) (n : Nat) :
    (if n ≤ bound then some n else none).map (fun k => [commandLine (command (BitVec.ofNat Config.countBits k))]) =
      if n ≤ bound then some [.hostWrite 2 (BitVec.ofNat 32 (n * 256 + opc))] else none := by
  by_cases hn : n ≤ bound
  · have hn' : n < 256 := Nat.lt_succ_of_le (hn.trans hbound)
    rw [if_pos hn, if_pos hn, Option.map_some, commandLine_eq, hopc, harg, count_ofNat_toNat, Nat.mod_eq_of_lt hn']
  · rw [if_neg hn, if_neg hn, Option.map_none]

theorem fitting_count (n : Nat) :
    fitting Config.countBits n = (if n ≤ 255 then some n else none).map (BitVec.ofNat Config.countBits) := by
  by_cases hn : n ≤ 255
  · rw [if_pos hn]
    exact if_pos (Nat.lt_succ_of_le hn)
  · rw [if_neg hn]
    exact if_neg (fun h => hn (Nat.le_of_lt_succ h))

theorem slotOperand_val (n : Nat) : (slotOperand n).map Fin.val = if n ≤ 99 then some n else none := by
  by_cases hn : n ≤ 99
  · have hslot : n < Config.slotMax + 1 := Nat.lt_succ_of_le hn
    rw [if_pos hn, slotOperand, dif_pos hslot, Option.map_some]
  · have hslot : ¬ n < Config.slotMax + 1 := fun h => hn (Nat.le_of_lt_succ h)
    rw [if_neg hn, slotOperand, dif_neg hslot, Option.map_none]

theorem assemble_stream (n : Nat) : assemble (.stream n) =
    (if n ≤ 255 then some n else none).map fun k => [commandLine (.stream (BitVec.ofNat Config.countBits k))] := by
  rw [assemble, fitting_count]
  cases (if n ≤ 255 then some n else none) <;> rfl

theorem assemble_encode (n : Nat) : assemble (.encode n) =
    (if n ≤ 99 then some n else none).map fun k => [commandLine (.encode (BitVec.ofNat Config.countBits k))] := by
  rw [assemble, ← slotOperand_val]
  cases slotOperand n <;> rfl

theorem assemble_decode (n : Nat) : assemble (.decode n) =
    (if n ≤ 99 then some n else none).map fun k => [commandLine (.decode (BitVec.ofNat Config.countBits k))] := by
  rw [assemble, ← slotOperand_val]
  cases slotOperand n <;> rfl

/-- Settles O17: a line without operand is its one word, a line with one is refused above its operand's bound. -/
theorem assemblerEmitsCommandWords : Obligations.AssemblerEmitsCommandWords := by
  unfold Obligations.AssemblerEmitsCommandWords
  refine ⟨by decide, by decide, by decide, fun n => ?_, fun n => ?_, fun n => ?_⟩
  · rw [assemble_stream]
    exact operandLine_eq .stream 2 (fun _ => rfl) (fun _ => rfl) (by decide) n
  · rw [assemble_encode]
    exact operandLine_eq .encode 5 (fun _ => rfl) (fun _ => rfl) (by decide) n
  · rw [assemble_decode]
    exact operandLine_eq .decode 6 (fun _ => rfl) (fun _ => rfl) (by decide) n

end Sys2Proof.Machine
end

section
/-! PROOFS. The pure functions of the keystream generator (40_keystream.md R61 to R64): `advance` as arithmetic, and the
linear bijections that `advance` and its iterate `stream` are. -/

namespace Sys2Proof.Machine

/-! ## The two shifts (R6) -/

theorem shl32_toNat (v : Word) (k : Nat) : (shl32 v k).toNat = v.toNat * 2 ^ k % 2 ^ 32 := by
  rw [shl32, BitVec.toNat_shiftLeft, Nat.shiftLeft_eq]

theorem shr32_toNat (v : Word) (k : Nat) : (shr32 v k).toNat = v.toNat / 2 ^ k := by
  rw [shr32, BitVec.toNat_ushiftRight, Nat.shiftRight_eq_div_pow]

theorem iterate_shl32 (k n : Nat) (v : Word) : (shl32 · k)^[n] v = v <<< (k * n) := by
  induction n with
  | zero => exact (BitVec.shiftLeft_zero v).symm
  | succ n ih => rw [Function.iterate_succ_apply', ih, Nat.mul_succ, BitVec.shiftLeft_add, shl32]

theorem iterate_shr32 (k n : Nat) (v : Word) : (shr32 · k)^[n] v = v >>> (k * n) := by
  induction n with
  | zero => exact (BitVec.ushiftRight_zero v).symm
  | succ n ih => rw [Function.iterate_succ_apply', ih, Nat.mul_succ, BitVec.shiftRight_add, shr32]

/-! ## A stage of `advance`, and `advance` -/

/-- A stage of `advance` (R61): the value XOR a shifted copy of itself. -/
def xorShifted (shift : Word → Nat → Word) (k : Nat) (v : Word) : Word := v ^^^ shift v k

/-- `advance` is its three stages (R61). -/
theorem advance_eq_stages (s : Word) :
    advance s = xorShifted shl32 Config.shC (xorShifted shr32 Config.shB (xorShifted shl32 Config.shA s)) := rfl

/-- A stage is linear because its shift is. -/
theorem xorShifted_xor {shift : Word → Nat → Word} {k : Nat}
    (hshift : ∀ a b, shift (a ^^^ b) k = shift a k ^^^ shift b k) (a b : Word) :
    xorShifted shift k (a ^^^ b) = xorShifted shift k a ^^^ xorShifted shift k b := by
  rw [xorShifted, xorShifted, xorShifted, hshift]
  ac_rfl

/-- A stage is 0 only at 0: a word that is equal to its own shifted copy is a fixed point of the shift, and the shift
done often enough leaves 0. -/
theorem xorShifted_eq_zero_iff {shift : Word → Nat → Word} {k n : Nat} (hshift : ∀ v, (shift · k)^[n] v = 0)
    (hzero : shift 0 k = 0) (v : Word) : xorShifted shift k v = 0 ↔ v = 0 := by
  have hfixed : v = shift v k ↔ v = 0 := by
    constructor
    · intro h
      exact (Function.iterate_fixed h.symm n).symm.trans (hshift v)
    · rintro rfl
      exact hzero.symm
  exact BitVec.xor_eq_zero_iff.trans hfixed

theorem xorShifted_shl32_xor (k : Nat) (a b : Word) :
    xorShifted shl32 k (a ^^^ b) = xorShifted shl32 k a ^^^ xorShifted shl32 k b :=
  xorShifted_xor (fun a b => BitVec.shiftLeft_xor_distrib a b k) a b

theorem xorShifted_shr32_xor (k : Nat) (a b : Word) :
    xorShifted shr32 k (a ^^^ b) = xorShifted shr32 k a ^^^ xorShifted shr32 k b :=
  xorShifted_xor (fun a b => BitVec.ushiftRight_xor_distrib a b k) a b

theorem xorShifted_shl32_eq_zero_iff {k : Nat} (hk : 0 < k) (v : Word) : xorShifted shl32 k v = 0 ↔ v = 0 :=
  xorShifted_eq_zero_iff (n := 32)
    (fun v => (iterate_shl32 k 32 v).trans (BitVec.shiftLeft_eq_zero (Nat.le_mul_of_pos_left 32 hk)))
    (BitVec.zero_shiftLeft k) v

theorem xorShifted_shr32_eq_zero_iff {k : Nat} (hk : 0 < k) (v : Word) : xorShifted shr32 k v = 0 ↔ v = 0 :=
  xorShifted_eq_zero_iff (n := 32)
    (fun v => (iterate_shr32 k 32 v).trans (BitVec.ushiftRight_eq_zero (Nat.le_mul_of_pos_left 32 hk)))
    BitVec.zero_ushiftRight v

theorem advance_eq_zero_iff (s : Word) : advance s = 0 ↔ s = 0 := by
  rw [advance_eq_stages, xorShifted_shl32_eq_zero_iff (by decide), xorShifted_shr32_eq_zero_iff (by decide),
    xorShifted_shl32_eq_zero_iff (by decide)]

theorem advance_xor (a b : Word) : advance (a ^^^ b) = advance a ^^^ advance b := by
  simp only [advance_eq_stages, xorShifted_shl32_xor, xorShifted_shr32_xor]

theorem advance_bijective : Function.Bijective advance := by
  apply Function.Injective.bijective_of_finite
  intro a b hab
  have hkernel : advance (a ^^^ b) = 0 := (advance_xor a b).trans (BitVec.xor_eq_zero_iff.mpr hab)
  exact BitVec.xor_eq_zero_iff.mp ((advance_eq_zero_iff _).mp hkernel)

/-- Settles O1: the three stages, with the shifts read as arithmetic. -/
theorem advanceIsThreeShiftXorStages : Obligations.AdvanceIsThreeShiftXorStages := by
  unfold Obligations.AdvanceIsThreeShiftXorStages
  refine ⟨fun s => ⟨_, _, rfl, rfl, ?_⟩, by decide⟩
  simp only [advance, BitVec.toNat_xor, shl32_toNat, shr32_toNat, Config.shA, Config.shB, Config.shC]

/-- Settles O2: `advance` is linear and 0 only at 0, so injective, and on finitely many words a bijection. -/
theorem advanceIsLinearBijection : Obligations.AdvanceIsLinearBijection :=
  ⟨(advance_eq_zero_iff 0).mpr rfl, advance_xor, advance_bijective, advance_eq_zero_iff⟩

/-! ## `stream` -/

theorem stream_eq_iterate (seed : Word) (n : Nat) : stream seed n = advance^[n] seed := by
  induction n with
  | zero => rfl
  | succ n ih => rw [stream, ih, Function.iterate_succ_apply']

theorem stream_add (seed : Word) (a b : Nat) : stream seed (a + b) = stream (stream seed a) b := by
  rw [stream_eq_iterate, stream_eq_iterate, stream_eq_iterate, Nat.add_comm, Function.iterate_add_apply]

theorem stream_bijective (n : Nat) : Function.Bijective (stream · n) := by
  simpa only [stream_eq_iterate] using advance_bijective.iterate n

theorem stream_xor (x y : Word) (n : Nat) : stream (x ^^^ y) n = stream x n ^^^ stream y n := by
  induction n with
  | zero => rfl
  | succ n ih => rw [stream, ih, advance_xor, stream, stream]

theorem stream_eq_zero_iff (seed : Word) (n : Nat) : stream seed n = 0 ↔ seed = 0 := by
  induction n with
  | zero => rfl
  | succ n ih => rw [stream, advance_eq_zero_iff, ih]

/-- Settles O3: `stream` recurses on the step count as the iterate does. -/
theorem streamAppliesAdvanceExactlySteps : Obligations.StreamAppliesAdvanceExactlySteps :=
  ⟨stream_eq_iterate, fun _ => rfl, fun _ _ => rfl, by decide, by decide, by decide⟩

/-- Settles O4: each property of `stream` is that of `advance`, carried through the iteration. -/
theorem streamComposesAndIsLinearBijection : Obligations.StreamComposesAndIsLinearBijection :=
  ⟨fun _ => rfl, stream_add, fun n => (stream_eq_zero_iff 0 n).mpr rfl,
    fun n => ⟨stream_bijective n, fun x y => stream_xor x y n, fun seed => (stream_eq_zero_iff seed n).mp⟩,
    fun _ => rfl⟩

end Sys2Proof.Machine
end

section
/-! PROOFS. The sequencer and the keystream commands (40_keystream.md R65 to R69): what the finalisation tick writes,
`ADVANCE` and `STREAM` from acceptance on, and the function of a whole command. -/

namespace Sys2Proof.Machine

/-! ## The formulas of R66 -/

section
variable {b : Block} (r : Draw)

theorem finalResult_keystream (h : b.op = 1 ∨ b.op = 2) : finalResult b r = some b.lfsr := by
  rcases h with h | h <;> rw [finalResult, h] <;> rfl

theorem finalResult_maskIn (h : b.op = 3) : finalResult b r = some (maskIn b.din r) := by
  rw [finalResult, h]; rfl

theorem finalResult_maskOut (h : b.op = 4) : finalResult b r = some (maskOut b.din) := by
  rw [finalResult, h]; rfl

theorem finalResult_encode (h : b.op = 5) : finalResult b r = some (b.lfsr ^^^ maskIn b.din r) := by
  rw [finalResult, h]; rfl

theorem finalResult_decode (h : b.op = 6) : finalResult b r = some (maskOut (b.lfsr ^^^ b.din)) := by
  rw [finalResult, h]; rfl

end

/-! ## The two ticks -/

/-- Settles O27: the two forms of a tick that is no finalisation. -/
theorem advancingTickStepsLfsrAndCount : Obligations.AdvancingTickStepsLfsrAndCount :=
  fun _ r => ⟨tick_advancing r, tick_notBusy r⟩

/-- Settles O28: the tick writes `finalResult`, which has a value for each of the six opcodes; the statement's constants
are those `maskIn` and `maskOut` unfold to. -/
theorem finalisationTickWritesResult : Obligations.FinalisationTickWritesResult := by
  unfold Obligations.FinalisationTickWritesResult
  intro s r hbusy hcount hlow hhigh
  obtain ⟨v, hv⟩ : ∃ v, finalResult s.block (drawValue r s.draws) = some v := by
    rw [← Option.isSome_iff_exists, finalResult_isSome]
    exact decide_eq_true ⟨hlow, hhigh⟩
  have hvalue {w : Word} (hw : finalResult s.block (drawValue r s.draws) = some w) : v = w :=
    Option.some.inj (hv.symm.trans hw)
  refine ⟨v, ?_, fun h => hvalue (finalResult_keystream _ h), fun h => hvalue (finalResult_maskIn _ h),
    fun h => hvalue (finalResult_maskOut _ h), fun h => hvalue (finalResult_encode _ h),
    fun h => hvalue (finalResult_decode _ h)⟩
  have htick := (tick_final r hbusy hcount).trans (finalisationTick_of_result hv)
  simp only [takesDraw_iff] at htick
  exact htick

/-! ## From acceptance to finalisation -/

@[simp] theorem withSchedule_block (s : State) (es : List Event) : (s.withSchedule es).block = s.block := rfl
@[simp] theorem withSchedule_draws (s : State) (es : List Event) : (s.withSchedule es).draws = s.draws := rfl
@[simp] theorem withSchedule_events (s : State) (es : List Event) : (s.withSchedule es).events = es ++ s.events := rfl

/-- A busy block whose result for each draw is `value` finishes with the tick after `COUNT` ticks (R65, R66). -/
theorem finishesAfter_of_busy {t : State} {value : Draw → Word} (hbusy : t.block.busy = true)
    (hvalue : ∀ d, finalResult (afterTicks t.block.count.toNat t.block) d = some (value d)) :
    FinishesAfter t t.block.count.toNat (if takesDraw t.block.op then 1 else 0)
      fun d => finishWith (value d) (afterTicks t.block.count.toNat t.block) := by
  intro es r hq hticks
  obtain ⟨m, hrun, hmblock, hmev, hmdraws⟩ :=
    run_quiet (s := t.withSchedule (es ++ [.tick r])) (rest := .tick r :: t.events)
      (by simp) hbusy hq hticks.le
  rw [withSchedule_block, hticks] at hmblock
  rw [withSchedule_draws] at hmdraws
  have hfinal := step_final hmev (by simp [hmblock, hbusy]) (by simp [hmblock])
    (by rw [hmblock, hmdraws]; exact hvalue _)
  refine ⟨_, (run_add es.length 1 hrun).trans (run_succ 0 hfinal), ?_, rfl, ?_⟩
  · simp only [hmblock]
  · simp only [hmblock, hmdraws, afterTicks_op]
    split <;> rfl

/-- A command written to an Idle block is accepted or turned away at once. -/
theorem exec_idle (i : Instr) {s : State} (hidle : s.block.Idle) :
    exec i s = .next (s.withBlock (acceptanceOf i s.block)) := by
  rw [exec_eq_next, gatedWrite_idle _ hidle]

/-- The block a finished command leaves: acceptance, its `n` advancing ticks and finalisation in one (R99, R65, R66). -/
theorem finishWith_afterTicks_acceptCommand (v : Word) (opc : Opcode) (n : Count) (b : Block) :
    finishWith v (afterTicks n.toNat (acceptCommand opc n b)) = { b with
      op := opc, count := 0, lfsr := stream (if loadsLfsr opc then b.seed else b.lfsr) n.toNat, dout := v
      busy := false, done := true } := by
  simp [afterTicks_eq, acceptCommand, markAccepted, finishWith, markFinished]

/-! ## The accepted block and what its finalisation writes -/

theorem loadsLfsr_of_keystream {opc : Opcode} (hopc : opc = 1 ∨ opc = 2 ∨ opc = 5 ∨ opc = 6) :
    loadsLfsr opc = true := by
  rcases hopc with rfl | rfl | rfl | rfl <;> rfl

theorem loadsLfsr_of_mask {opc : Opcode} (hopc : opc = 3 ∨ opc = 4) : loadsLfsr opc = false := by
  rcases hopc with rfl | rfl <;> rfl

section
variable {opc : Opcode} (k : Nat) (n : Count) (b : Block) (r : Draw)

theorem accepted_lfsr_of_keystream (hopc : opc = 1 ∨ opc = 2 ∨ opc = 5 ∨ opc = 6) :
    (afterTicks k (acceptCommand opc n b)).lfsr = stream b.seed k := by
  simp [loadsLfsr_of_keystream hopc]

theorem accepted_result_keystream (hopc : opc = 1 ∨ opc = 2) :
    finalResult (afterTicks k (acceptCommand opc n b)) r = some (stream b.seed k) := by
  rw [finalResult_keystream r (by simpa using hopc), accepted_lfsr_of_keystream k n b (by tauto)]

theorem accepted_result_maskIn :
    finalResult (afterTicks k (acceptCommand 3 n b)) r = some (maskIn b.din r) := by
  rw [finalResult_maskIn r (afterTicks_op k _), afterTicks_din, acceptCommand_din]

theorem accepted_result_maskOut :
    finalResult (afterTicks k (acceptCommand 4 n b)) r = some (maskOut b.din) := by
  rw [finalResult_maskOut r (afterTicks_op k _), afterTicks_din, acceptCommand_din]

theorem accepted_result_encode (id : Slot) :
    finalResult (afterTicks (id.val + 1) (acceptCommand 5 n b)) r = some (cipherEncode b.seed id b.din r) := by
  rw [finalResult_encode r (afterTicks_op _ _), accepted_lfsr_of_keystream _ n b (by decide), afterTicks_din,
    acceptCommand_din, cipherEncode]

theorem accepted_result_decode (id : Slot) :
    finalResult (afterTicks (id.val + 1) (acceptCommand 6 n b)) r = some (cipherDecode b.seed id b.din) := by
  rw [finalResult_decode r (afterTicks_op _ _), accepted_lfsr_of_keystream _ n b (by decide), afterTicks_din,
    acceptCommand_din, cipherDecode]

end

/-- `ADVANCE` and `STREAM`, once accepted with step count `n`, finish with `stream(SEED, n)` (R67, R68). -/
theorem finishesAfter_keystream {opc : Opcode} (hopc : opc = 1 ∨ opc = 2) (n : Count) (s : State) :
    FinishesAfter (s.withBlock (acceptCommand opc n s.block)) n.toNat 0 fun _ => { s.block with
      op := opc, count := 0, lfsr := stream s.block.seed n.toNat, dout := stream s.block.seed n.toNat
      busy := false, done := true } := by
  have hloads : loadsLfsr opc = true := loadsLfsr_of_keystream (by tauto)
  have hnodraw : takesDraw opc = false := by rcases hopc with rfl | rfl <;> rfl
  have hfinish := finishesAfter_of_busy (t := s.withBlock (acceptCommand opc n s.block)) rfl
    fun d => accepted_result_keystream n.toNat n s.block d hopc
  simpa [finishWith_afterTicks_acceptCommand, hloads, hnodraw] using hfinish

/-- Settles O31: `ADVANCE` is the keystream command with one step. -/
theorem advanceCompletesWithAdvanceOfSeed : Obligations.AdvanceCompletesWithAdvanceOfSeed :=
  fun s hidle => ⟨_, exec_idle .advance hidle, rfl, finishesAfter_keystream (.inl rfl) 1 s⟩

/-- Settles O32: `STREAM` is the keystream command with its operand as step count. -/
theorem streamCompletesWithStreamOfSeed : Obligations.StreamCompletesWithStreamOfSeed :=
  fun s steps hidle => ⟨_, exec_idle (.stream steps) hidle, rfl, finishesAfter_keystream (.inr rfl) steps s⟩

/-! ## A whole command (R69) -/

/-- The step count of an accepted `ENCODE` or `DECODE` is one more than a slot (R52). -/
theorem exists_slot_of_decodeCmd {c : Word} {opc : Opcode} {n : Count} (hdec : decodeCmd c = .accept opc n)
    (hopc : opc = 5 ∨ opc = 6) : ∃ id : Slot, id.val + 1 = n.toNat := by
  have hanswer := decodeCmd_eq_iff.mp hdec
  rw [AnswerIs] at hanswer
  have hnum : opc.toNat = 5 ∨ opc.toNat = 6 := hopc.imp (congrArg BitVec.toNat) (congrArg BitVec.toNat)
  have hpos : 1 ≤ n.toNat := by omega
  have hslot : n.toNat - 1 < Config.slotMax + 1 := by rw [Config.slotMax]; omega
  exact ⟨⟨n.toNat - 1, hslot⟩, Nat.sub_add_cancel hpos⟩

theorem afterTicks_count_toNat {k : Nat} {b : Block} (hk : k ≤ b.count.toNat) :
    (afterTicks k b).count.toNat = b.count.toNat - k := by
  have hmod : (BitVec.ofNat Config.countBits k).toNat = k :=
    (count_ofNat_toNat k).trans (Nat.mod_eq_of_lt (Nat.lt_of_le_of_lt hk (count_toNat_lt b.count)))
  rw [afterTicks_count, BitVec.toNat_sub_of_le (by rwa [BitVec.le_def, hmod]), hmod]

/-- Settles O39: the block after the schedule, and after its last tick, is known by `run_quiet` and `run_command`;
`DOUT` holds the formula of R66 for the opcode. -/
theorem acceptedCommandComputesItsFunction : Obligations.AcceptedCommandComputesItsFunction := by
  unfold Obligations.AcceptedCommandComputesItsFunction
  intro s c opc n es rest hidle hdec hq
  constructor
  · intro r hticks hev
    obtain ⟨u, v, hrun, hv, hublock, huev, -⟩ := run_command hidle hdec hq hticks hev
    rw [finishWith_afterTicks_acceptCommand] at hublock
    have hvalue {w : Word} (hw : finalResult (afterTicks n.toNat (acceptCommand opc n s.block))
        (drawValue r s.draws) = some w) : v = w := Option.some.inj (hv.symm.trans hw)
    refine ⟨u, hrun, huev, ?_⟩
    rw [hublock]
    refine ⟨rfl, rfl, hidle.2, rfl, rfl, rfl, rfl, fun hopc => ?lfsrLoaded, fun hopc => ?lfsrKept,
      fun hopc => ?keystream, fun hopc => ?maskIn, fun hopc => ?maskOut, fun hopc => ?encode, fun hopc => ?decode⟩
    case lfsrLoaded => simp [loadsLfsr_of_keystream hopc]
    case lfsrKept =>
      have hn : n = 0 := (legalAcceptance_of_decodeCmd hdec).mask hopc
      simp [loadsLfsr_of_mask hopc, hn, stream]
    case keystream => exact hvalue (accepted_result_keystream _ n s.block _ hopc)
    case maskIn =>
      subst hopc
      exact hvalue (accepted_result_maskIn _ n s.block _)
    case maskOut =>
      subst hopc
      exact hvalue (accepted_result_maskOut _ n s.block _)
    case encode =>
      obtain ⟨id, hid⟩ := exists_slot_of_decodeCmd hdec (.inl hopc)
      subst hopc
      exact ⟨id, hid, hvalue (hid ▸ accepted_result_encode n s.block _ id)⟩
    case decode =>
      obtain ⟨id, hid⟩ := exists_slot_of_decodeCmd hdec (.inr hopc)
      subst hopc
      exact ⟨id, hid, hvalue (hid ▸ accepted_result_decode n s.block _ id)⟩
  · intro hticks hev
    have haccept := step_command hidle hev
    rw [hdec] at haccept
    obtain ⟨u, hrun, hublock, huev, -⟩ :=
      run_quiet (s := State.withBlock { s with events := es ++ rest } (acceptCommand opc n s.block)) rfl rfl hq hticks
    rw [withBlock_block] at hublock
    refine ⟨u, (run_succ _ haccept).trans hrun, huev, ?_⟩
    rw [hublock]
    exact ⟨by simp, by simp, by simp, by simp, afterTicks_count_toNat hticks,
      accepted_lfsr_of_keystream _ n s.block⟩

end Sys2Proof.Machine
end

section
/-! PROOFS. The pure functions of the cipher (41_cipher.md R75 to R80, R85): where each bit of a masked pin comes from,
and how `mask_out` and the XOR of the keystream pass through each other. -/

namespace Sys2Proof.Machine

/-! ## `mask_in` and `mask_out` (R75, R76) -/

theorem payloadMask_getLsbD (i : Nat) : payloadMask.getLsbD i = decide (i < 30) := by
  rw [payloadMask, BitVec.getLsbD_ofNat, Nat.testBit_two_pow_sub_one, Config.payloadBits, ← Bool.decide_and]
  exact decide_eq_decide.mpr ⟨And.right, fun hi => ⟨hi.trans (by decide), hi⟩⟩

theorem maskOut_getLsbD (w : Word) (i : Nat) : (maskOut w).getLsbD i = (w.getLsbD i && decide (i < 30)) := by
  rw [maskOut, BitVec.getLsbD_and, payloadMask_getLsbD]

/-- The low 30 bits of a masked pin are the pin's, the bits above them the draw's (R75). -/
theorem maskIn_getLsbD (pin : Word) (r : Draw) (i : Nat) :
    (maskIn pin r).getLsbD i = if i < 30 then pin.getLsbD i else r.getLsbD (i - 30) := by
  rw [maskIn, BitVec.getLsbD_or, ← maskOut, maskOut_getLsbD, shl32, BitVec.getLsbD_shiftLeft]
  by_cases hi : i < 30
  · simp [hi]
  · by_cases hword : i < 32
    · simp [hi, hword, show i - 30 < 32 by omega]
    · simp [hi, hword, BitVec.getLsbD_of_ge r (i - 30) (show 2 ≤ i - 30 by omega)]

theorem maskOut_toNat (w : Word) : (maskOut w).toNat = w.toNat % 2 ^ 30 :=
  Nat.and_two_pow_sub_one_eq_mod w.toNat 30

theorem maskOut_toNat_lt (w : Word) : (maskOut w).toNat < 2 ^ 30 := by
  rw [maskOut_toNat]
  exact Nat.mod_lt _ (by decide)

theorem maskOut_of_lt {w : Word} (hw : w.toNat < 2 ^ 30) : maskOut w = w :=
  BitVec.eq_of_toNat_eq ((maskOut_toNat w).trans (Nat.mod_eq_of_lt hw))

/-- `mask_out` is linear. -/
theorem maskOut_xor (v w : Word) : maskOut (v ^^^ w) = maskOut v ^^^ maskOut w := by
  apply BitVec.eq_of_getLsbD_eq
  intro i _
  simp only [maskOut_getLsbD, BitVec.getLsbD_xor, Bool.and_xor_distrib_right]

/-- `mask_out` removes what `mask_in` laid over the pin. -/
theorem maskOut_maskIn (pin : Word) (r : Draw) : maskOut (maskIn pin r) = maskOut pin := by
  apply BitVec.eq_of_getLsbD_eq
  intro i _
  rw [maskOut_getLsbD, maskOut_getLsbD, maskIn_getLsbD]
  by_cases hi : i < 30 <;> simp [hi]

/-- Two masked forms of one pin differ by their draws, laid over a zero pin. -/
theorem maskIn_xor_maskIn (pin : Word) (r q : Draw) : maskIn pin r ^^^ maskIn pin q = maskIn 0 (r ^^^ q) := by
  apply BitVec.eq_of_getLsbD_eq
  intro i _
  simp only [BitVec.getLsbD_xor, maskIn_getLsbD]
  by_cases hi : i < 30 <;> simp [hi]

theorem maskIn_zero (r : Draw) : maskIn 0 r = r.zeroExtend 32 <<< 30 := by
  simp [maskIn, shl32]

/-- The draw can be read back from a masked pin. -/
theorem maskIn_inj (pin : Word) (r q : Draw) : maskIn pin r = maskIn pin q ↔ r = q := by
  refine ⟨fun h => BitVec.eq_of_getLsbD_eq fun i _ => ?_, congrArg (maskIn pin)⟩
  simpa [maskIn_getLsbD] using congrArg (fun w => w.getLsbD (i + 30)) h

/-- Settles O5: `maskIn_getLsbD`, at the bits below 30, at bit 31 and at bit 30. -/
theorem maskInReplacesTopTwoBits : Obligations.MaskInReplacesTopTwoBits := by
  unfold Obligations.MaskInReplacesTopTwoBits
  refine ⟨fun _ _ => rfl, fun pin r i hi => ?_, fun pin r => ⟨?_, ?_⟩, by decide⟩
  · rw [maskIn_getLsbD, if_pos hi]
  · exact maskIn_getLsbD pin r 31
  · exact maskIn_getLsbD pin r 30

/-- Settles O6: `mask_out` is the remainder modulo `2^30`, and forgets the draw. -/
theorem maskOutClearsTopTwoBits : Obligations.MaskOutClearsTopTwoBits :=
  ⟨fun _ => rfl, maskOut_toNat_lt, maskOut_maskIn,
    fun pin r hpin => (maskOut_maskIn pin r).trans (maskOut_of_lt hpin), by decide⟩

/-! ## `encode` and `decode` (R77, R78) -/

/-- A word XORed twice with the same keystream is the word again. -/
theorem xor_xor_same (k w : Word) : k ^^^ (k ^^^ w) = w := by
  rw [← BitVec.xor_assoc, BitVec.xor_self, BitVec.zero_xor]

/-- A keystream common to two words drops out of their XOR. -/
theorem xor_xor_xor_same (k v w : Word) : k ^^^ v ^^^ (k ^^^ w) = v ^^^ w := by
  rw [BitVec.xor_comm k v, BitVec.xor_assoc, xor_xor_same]

theorem cipherEncode_getLsbD (m pin : Word) (id : Slot) (r : Draw) (i : Nat) :
    (cipherEncode m id pin r).getLsbD i =
      ((if i < 30 then pin.getLsbD i else r.getLsbD (i - 30)) ^^ (stream m (id.val + 1)).getLsbD i) := by
  rw [cipherEncode, BitVec.getLsbD_xor, maskIn_getLsbD, Bool.xor_comm]

theorem cipherEncode_getLsbD_of_lt (m pin : Word) (id : Slot) (r : Draw) {i : Nat} (hi : i < 30) :
    (cipherEncode m id pin r).getLsbD i = (pin.getLsbD i ^^ (stream m (id.val + 1)).getLsbD i) := by
  rw [cipherEncode_getLsbD, if_pos hi]

/-- Settles O7: each bit is that of the masked pin, XORed with the keystream's. -/
theorem encodeMasksThenXorsKeystream : Obligations.EncodeMasksThenXorsKeystream :=
  ⟨fun m pin id r => ⟨rfl, fun _ hi => cipherEncode_getLsbD_of_lt m pin id r hi,
    cipherEncode_getLsbD m pin id r 31, cipherEncode_getLsbD m pin id r 30⟩, by decide⟩

/-- Settles O8: the bound is that of `mask_out`. -/
theorem decodeUnmasksXorOfKeystream : Obligations.DecodeUnmasksXorOfKeystream :=
  ⟨fun _ _ _ => rfl, fun _ _ _ => maskOut_toNat_lt _, by decide⟩

/-- Decoding removes the keystream and the draw (R79). -/
theorem cipherDecode_cipherEncode (m pin : Word) (id : Slot) (r : Draw) :
    cipherDecode m id (cipherEncode m id pin r) = maskOut pin := by
  rw [cipherDecode, cipherEncode, xor_xor_same, maskOut_maskIn]

/-- Encoding a decoded word restores its low 30 bits, whatever the draw (R79). -/
theorem cipherEncode_cipherDecode_getLsbD (m w : Word) (id : Slot) (r : Draw) {i : Nat} (hi : i < 30) :
    (cipherEncode m id (cipherDecode m id w) r).getLsbD i = w.getLsbD i := by
  rw [cipherEncode_getLsbD_of_lt m _ id r hi, cipherDecode, maskOut_getLsbD, decide_eq_true hi, Bool.and_true,
    ← BitVec.getLsbD_xor, BitVec.xor_comm, xor_xor_same]

/-- Settles O9: the round trip in both directions. -/
theorem decodeOfEncodeGivesPinBack : Obligations.DecodeOfEncodeGivesPinBack :=
  ⟨fun m pin id r hpin => (cipherDecode_cipherEncode m pin id r).trans (maskOut_of_lt hpin),
    cipherDecode_cipherEncode, fun m w id r _ hi => cipherEncode_cipherDecode_getLsbD m w id r hi⟩

/-! ## Two encodings of one pin (R80) -/

theorem cipherEncode_inj (m pin : Word) (id : Slot) (r q : Draw) :
    cipherEncode m id pin r = cipherEncode m id pin q ↔ r = q := by
  rw [cipherEncode, cipherEncode, BitVec.xor_right_inj, maskIn_inj]

theorem cipherEncode_xor_cipherEncode (m pin : Word) (id : Slot) (r q : Draw) :
    cipherEncode m id pin r ^^^ cipherEncode m id pin q = (r ^^^ q).zeroExtend 32 <<< 30 := by
  rw [cipherEncode, cipherEncode, xor_xor_xor_same, maskIn_xor_maskIn, maskIn_zero]

/-- Settles O10: the keystream drops out, and only the draws are left to differ. -/
theorem encodingsDifferExactlyAsTheirDraws : Obligations.EncodingsDifferExactlyAsTheirDraws := by
  unfold Obligations.EncodingsDifferExactlyAsTheirDraws
  intro m pin id r q
  refine ⟨cipherEncode_inj m pin id r q, fun i hi => ?_, cipherEncode_xor_cipherEncode m pin id r q, ?_⟩
  · rw [cipherEncode_getLsbD_of_lt m pin id r hi, cipherEncode_getLsbD_of_lt m pin id q hi]
  · rw [cipherDecode_cipherEncode, cipherDecode_cipherEncode]

/-! ## The derived facts of `decode` (R85) -/

/-- R85 (a): what differs from a word only where `mask_out` clears decodes alike. -/
theorem cipherDecode_xor_of_maskOut_eq_zero (m w : Word) (id : Slot) {v : Word} (hv : maskOut v = 0) :
    cipherDecode m id (w ^^^ v) = cipherDecode m id w := by
  rw [cipherDecode, ← BitVec.xor_assoc, maskOut_xor, hv, ← cipherDecode]
  exact BitVec.xor_zero

/-- R85 (b). -/
theorem cipherDecode_xor_cipherDecode (m v w : Word) (id : Slot) :
    cipherDecode m id v ^^^ cipherDecode m id w = maskOut (v ^^^ w) := by
  rw [cipherDecode, cipherDecode, ← maskOut_xor, xor_xor_xor_same]

/-- R85 (c): the keystream of master 0 is 0. -/
theorem cipherDecode_zero_master (w : Word) (id : Slot) : cipherDecode 0 id w = maskOut w := by
  rw [cipherDecode, (stream_eq_zero_iff 0 _).mpr rfl]
  exact congrArg maskOut BitVec.zero_xor

/-- R85 (e): the decode of the zero word is linear in the master, as the keystream is. -/
theorem cipherDecode_zero_word_xor (m₁ m₂ : Word) (id : Slot) :
    cipherDecode (m₁ ^^^ m₂) id 0 = cipherDecode m₁ id 0 ^^^ cipherDecode m₂ id 0 := by
  have hzero (k : Word) : k ^^^ 0 = k := BitVec.xor_zero
  rw [cipherDecode, cipherDecode, cipherDecode, hzero, hzero, hzero, stream_xor, maskOut_xor]

theorem card_range_filter_gt (n bound : Nat) :
    ((Finset.range n).filter (fun v => bound < v)).card = n - (bound + 1) := by
  have hinterval : (Finset.range n).filter (fun v => bound < v) = Finset.Ioo bound n := by
    ext v
    rw [Finset.mem_filter, Finset.mem_range, Finset.mem_Ioo, and_comm]
  rw [hinterval, Nat.card_Ioo]
  omega

/-- Settles O11: the six facts of R85 in order, the last with its count. -/
theorem decodedValuesObeyXorLaws : Obligations.DecodedValuesObeyXorLaws := by
  unfold Obligations.DecodedValuesObeyXorLaws
  exact ⟨fun m w i => ⟨(cipherDecode_xor_of_maskOut_eq_zero m w i (by decide)).symm,
      (cipherDecode_xor_of_maskOut_eq_zero m w i (by decide)).symm⟩,
    cipherDecode_xor_cipherDecode, cipherDecode_zero_master, fun _ _ => rfl, cipherDecode_zero_word_xor,
    fun _ _ _ => Iff.rfl, card_range_filter_gt (2 ^ 30) 999999999⟩

end Sys2Proof.Machine
end

section
/-! PROOFS. The cipher commands (41_cipher.md R81 to R84): each completes from every Idle block. -/

namespace Sys2Proof.Machine

/-- An accepted command finishes with the tick after as many ticks as its step count, and its `DOUT` is the formula of
R66 for the accepted block (R65, R66, R99). -/
theorem finishesAfter_acceptCommand {opc : Opcode} {n : Count} {s : State} {value : Draw → Word}
    (hvalue : ∀ d, finalResult (afterTicks n.toNat (acceptCommand opc n s.block)) d = some (value d)) :
    FinishesAfter (s.withBlock (acceptCommand opc n s.block)) n.toNat (if takesDraw opc then 1 else 0)
      fun d => { s.block with
        op := opc, count := 0, lfsr := stream (if loadsLfsr opc then s.block.seed else s.block.lfsr) n.toNat
        dout := value d, busy := false, done := true } := by
  have hfinish := finishesAfter_of_busy (t := s.withBlock (acceptCommand opc n s.block)) rfl hvalue
  simp only [withBlock_block, acceptCommand_count, finishWith_afterTicks_acceptCommand] at hfinish
  exact hfinish

/-- Settles O33: the step count is 0, and acceptance leaves `LFSR`. -/
theorem maskInCompletesWithMaskedDin : Obligations.MaskInCompletesWithMaskedDin :=
  fun s hidle => ⟨_, exec_idle .maskIn hidle, rfl, finishesAfter_acceptCommand (accepted_result_maskIn 0 0 s.block)⟩

/-- Settles O34: the step count is 0, and acceptance leaves `LFSR`. -/
theorem maskOutCompletesWithUnmaskedDin : Obligations.MaskOutCompletesWithUnmaskedDin :=
  fun s hidle => ⟨_, exec_idle .maskOut hidle, rfl, finishesAfter_acceptCommand (accepted_result_maskOut 0 0 s.block)⟩

/-! ## The commands with a slot -/

/-- The step count of a slot, as the acceptance of `ENCODE` and `DECODE` loads it (R47). -/
def slotStepCount (id : Slot) : Count := BitVec.ofNat Config.countBits (id.val + 1)

theorem slotStepCount_toNat (id : Slot) : (slotStepCount id).toNat = id.val + 1 := by
  have hid : id.val < 100 := id.isLt
  rw [slotStepCount, count_ofNat_toNat]
  omega

/-- Every slot is accepted, with one more step than its id (R50). -/
theorem acceptSlotCommand_slot (opc : Opcode) (id : Slot) :
    acceptSlotCommand opc (BitVec.ofNat Config.countBits id.val) = acceptCommand opc (slotStepCount id) := by
  have hlegal : ¬ (BitVec.ofNat Config.countBits id.val).toNat > Config.slotMax :=
    Nat.not_lt.mpr ((Nat.mod_le _ _).trans (Nat.le_of_lt_succ id.isLt))
  rw [acceptSlotCommand_eq_answerTo, if_neg hlegal, slotStepCount, BitVec.ofNat_add]
  rfl

/-- `ENCODE` and `DECODE`, once accepted for a slot, finish with the keystream of that slot in `LFSR` (R83, R84). -/
theorem finishesAfter_slot {opc : Opcode} (hopc : opc = 5 ∨ opc = 6) {id : Slot} {s : State} {value : Draw → Word}
    (hvalue : ∀ d, finalResult (afterTicks (id.val + 1) (acceptCommand opc (slotStepCount id) s.block)) d =
      some (value d)) :
    FinishesAfter (s.withBlock (acceptCommand opc (slotStepCount id) s.block)) (id.val + 1)
      (if takesDraw opc then 1 else 0) fun d => { s.block with
        op := opc, count := 0, lfsr := stream s.block.seed (id.val + 1), dout := value d
        busy := false, done := true } := by
  rw [← slotStepCount_toNat] at hvalue ⊢
  have hfinish := finishesAfter_acceptCommand hvalue
  rwa [loadsLfsr_of_keystream (by tauto)] at hfinish

/-- Settles O35: `ENCODE` for a slot, with the ciphertext as its formula. -/
theorem encodeCompletesWithCiphertext : Obligations.EncodeCompletesWithCiphertext := by
  unfold Obligations.EncodeCompletesWithCiphertext
  intro s id hidle
  have haccept := exec_idle (.encode (BitVec.ofNat Config.countBits id.val)) hidle
  rw [acceptanceOf, acceptSlotCommand_slot] at haccept
  exact ⟨_, haccept, rfl, finishesAfter_slot (.inl rfl) fun d => accepted_result_encode _ s.block d id⟩

/-- Settles O36: `DECODE` for a slot, with the plaintext as its formula. -/
theorem decodeCompletesWithPlaintext : Obligations.DecodeCompletesWithPlaintext := by
  unfold Obligations.DecodeCompletesWithPlaintext
  intro s id hidle
  have haccept := exec_idle (.decode (BitVec.ofNat Config.countBits id.val)) hidle
  rw [acceptanceOf, acceptSlotCommand_slot] at haccept
  exact ⟨_, haccept, rfl, finishesAfter_slot (.inr rfl) fun d => accepted_result_decode _ s.block d id⟩

end Sys2Proof.Machine
end

section
/-! PROOFS. Host reads and writes (42_host_access.md R95 to R100): what each index reads, and what a write does to the
block, decided by the state first and the index second. -/

namespace Sys2Proof.Machine

/-! ## Reads (R95) -/

theorem step_hostRead {s : State} {i : RegIndex} {rest : List Event} (hev : s.events = .hostRead i :: rest) :
    step s = .next { s with events := rest, reads := readIndex s.block i :: s.reads } :=
  step_cons hev

/-- `STATUS` with its two flags read as the numbers R95 gives them. -/
theorem readIndex_status (b : Block) :
    readIndex b 3 = b.op.zeroExtend 32 * 256 + b.err.zeroExtend 32 * 16 +
      (if b.done then 2 else 0) + (if b.busy then 1 else 0) := by
  have hdone : flagBit b.done * 2 = if b.done then 2 else 0 := by cases b.done <;> rfl
  rw [← hdone]
  rfl

/-- Settles O19: the value is that of the register the index names. -/
theorem readReturnsItsRegister : Obligations.ReadReturnsItsRegister := by
  unfold Obligations.ReadReturnsItsRegister
  intro s i rest hev
  refine ⟨readIndex s.block i, step_hostRead hev, ?_, ?_, ?_, ?status, ?_, ?_, ?_, ?_⟩
  case status =>
    rintro rfl
    exact readIndex_status s.block
  all_goals
    rintro rfl
    rfl

/-! ## Writes (R96) -/

/-- The block after a host write: ignored for indices 3 to 7, else past the gate (R96, R100). -/
def writtenBlock (i : RegIndex) (v : Word) (b : Block) : Block :=
  if i.toNat ≤ 2 then gatedWrite (writePerform i v) b else b

theorem hostWrite_eq_writtenBlock (i : RegIndex) (v : Word) (s : State) :
    hostWrite i v s = .next (s.withBlock (writtenBlock i v s.block)) :=
  hostWrite_eq_next i v s

section
variable {i : RegIndex} (v : Word) {b : Block}

theorem writtenBlock_ignored (hi : 3 ≤ i.toNat) : writtenBlock i v b = b :=
  if_neg (Nat.not_le.mpr hi)

theorem writtenBlock_faulted (i : RegIndex) (h : b.Faulted) : writtenBlock i v b = b := by
  rw [writtenBlock, gatedWrite_faulted _ h, ite_self]

theorem writtenBlock_busy (hi : i.toNat ≤ 2) (herr : b.err = 0) (hbusy : b.busy = true) :
    writtenBlock i v b = takeFault .busyWrite b := by
  rw [writtenBlock, if_pos hi, gatedWrite_busy _ herr hbusy]

theorem writtenBlock_idle (hi : i.toNat ≤ 2) (hidle : b.Idle) : writtenBlock i v b = writePerform i v b := by
  rw [writtenBlock, if_pos hi, gatedWrite_idle _ hidle]

theorem writtenBlock_command (hidle : b.Idle) : writtenBlock 2 v b = answerTo (decodeCmd v) b := by
  rw [← commandPerform_eq_answerTo]
  exact writtenBlock_idle v (by decide) hidle

end

theorem loadsLfsr_eq_true_iff (opc : Opcode) :
    loadsLfsr opc = true ↔ opc = 1 ∨ opc = 2 ∨ opc = 5 ∨ opc = 6 := by
  simp [loadsLfsr, or_assoc]

/-- Acceptance, with the commands that load `LFSR` listed as R99 lists them. -/
theorem acceptCommand_eq (opc : Opcode) (n : Count) (b : Block) :
    acceptCommand opc n b = { b with
      op := opc, count := n, busy := true, done := false
      lfsr := if opc = 1 ∨ opc = 2 ∨ opc = 5 ∨ opc = 6 then b.seed else b.lfsr } := by
  simp only [acceptCommand, markAccepted, loadsLfsr_eq_true_iff]

/-- Settles O21: one lemma on `writtenBlock` per condition of R96, and `decode_cmd`'s answer for index 2. -/
theorem writeIsDecidedByStateThenIndex : Obligations.WriteIsDecidedByStateThenIndex := by
  unfold Obligations.WriteIsDecidedByStateThenIndex
  intro s i v rest hev
  refine ⟨writtenBlock i v s.block, (step_cons hev).trans (hostWrite_eq_writtenBlock i v _),
    writtenBlock_faulted v i, writtenBlock_ignored v, fun herr hi hbusy => writtenBlock_busy v hi herr hbusy,
    ?seed, ?din, ?command⟩
  case seed =>
    rintro hidle rfl
    exact writtenBlock_idle v (by decide) hidle
  case din =>
    rintro hidle rfl
    exact writtenBlock_idle v (by decide) hidle
  case command =>
    rintro hidle rfl
    rw [writtenBlock_command v hidle]
    refine ⟨fun hdec => ?_, fun hdec => ?_, fun opc n hdec => ?_⟩
    · rw [hdec]; rfl
    · rw [hdec]; rfl
    · rw [hdec]; exact acceptCommand_eq opc n s.block

/-- Settles O22: indices 0 and 1 in the three states of R96. -/
theorem operandWriteStoresAndReadsBack : Obligations.OperandWriteStoresAndReadsBack := by
  unfold Obligations.OperandWriteStoresAndReadsBack
  intro s v
  have hperform {i : RegIndex} {b : Block} (h : writtenBlock i v s.block = b) :
      performEvent (.hostWrite i v) s = .next (s.withBlock b) :=
    h ▸ hostWrite_eq_writtenBlock i v s
  refine ⟨fun hidle => ⟨?seed, ?din⟩, fun herr hbusy i hi => ?busy, fun hfault i _ => ?faulted⟩
  case seed => exact ⟨_, hperform (writtenBlock_idle v (by decide) hidle), rfl, rfl⟩
  case din => exact ⟨_, hperform (writtenBlock_idle v (by decide) hidle), rfl, rfl⟩
  case busy =>
    have hi : i.toNat ≤ 2 := by rcases hi with rfl | rfl <;> decide
    exact hperform (writtenBlock_busy v hi herr hbusy)
  case faulted => exact hperform (writtenBlock_faulted v i hfault)

/-! ## A command word written to `CMD` (R99) -/

/-- Settles O30: the write of a word that decodes runs its command, however the write came to be listed. -/
theorem stepRunsDecodedCommand : Obligations.StepRunsDecodedCommand := by
  unfold Obligations.StepRunsDecodedCommand
  have hlegal {c : Word} {i : Instr} (hdec : decode c = some i) {s : State} {rest : List Event}
      (hev : s.events = .hostWrite 2 c :: rest) : step s = exec i { s with events := rest } :=
    (step_cons hev).trans (commandWrite_legal hdec _)
  exact ⟨fun s c i rest hev hdec => hlegal hdec hev, fun s w i hdec => hlegal hdec rfl, fun s => step_nil⟩

end Sys2Proof.Machine
end

section
/-! PROOFS. What executing a command does to the machine (42_host_access.md R96, R99; 60_exceptions.md R138, R142): it
is accepted exactly where the block is Idle and the command well formed. -/

namespace Sys2Proof.Machine

theorem acceptSlotCommand_legal (opc : Opcode) {id : Count} (h : slotLegal id = true) :
    acceptSlotCommand opc id = acceptCommand opc (slotSteps id) := by
  funext b
  exact if_pos h

theorem acceptSlotCommand_illegal (opc : Opcode) {id : Count} (h : slotLegal id = false) :
    acceptSlotCommand opc id = takeFault .invalidSlot := by
  funext b
  exact if_neg (by simp [h])

theorem slotLegal_eq_false_iff (id : Count) : slotLegal id = false ↔ 99 < id.toNat :=
  decide_eq_false_iff_not.trans Nat.not_le

theorem acceptanceOf_wellFormed {i : Instr} (h : i.wellFormed = true) :
    ∃ n, acceptanceOf i = acceptCommand (opcodeOf i) n := by
  cases i with
  | encode id => exact ⟨_, acceptSlotCommand_legal 5 h⟩
  | decode id => exact ⟨_, acceptSlotCommand_legal 6 h⟩
  | _ => exact ⟨_, rfl⟩

theorem acceptanceOf_illFormed {i : Instr} (h : i.wellFormed = false) :
    acceptanceOf i = takeFault .invalidSlot := by
  cases i with
  | encode id => exact acceptSlotCommand_illegal 5 h
  | decode id => exact acceptSlotCommand_illegal 6 h
  | _ => cases h

/-- Only a slot id above 99 makes a command ill formed (R50). -/
theorem wellFormed_eq_false_iff (i : Instr) :
    i.wellFormed = false ↔ ∃ id : Count, 99 < id.toNat ∧ (i = .encode id ∨ i = .decode id) := by
  cases i with
  | encode id | decode id => exact (slotLegal_eq_false_iff id).trans (by simp)
  | _ => simp [Instr.wellFormed]

theorem exec_faulted (i : Instr) {s : State} (h : s.block.Faulted) : exec i s = .next s := by
  rw [exec_eq_next, gatedWrite_faulted _ h]
  rfl

theorem exec_busy (i : Instr) {s : State} (herr : s.block.err = 0) (hbusy : s.block.busy = true) :
    exec i s = .next (s.withBlock (takeFault .busyWrite s.block)) := by
  rw [exec_eq_next, gatedWrite_busy _ herr hbusy]

theorem exec_illFormed {i : Instr} {s : State} (hidle : s.block.Idle) (h : i.wellFormed = false) :
    exec i s = .next (s.withBlock (takeFault .invalidSlot s.block)) := by
  rw [exec_idle i hidle, acceptanceOf_illFormed h]

/-- Settles O37: one lemma on `exec` per condition. -/
theorem commandIsTurnedAwayByFaultBusyOrSlot : Obligations.CommandIsTurnedAwayByFaultBusyOrSlot :=
  fun i _ => ⟨exec_faulted i, exec_busy i, exec_illFormed, wellFormed_eq_false_iff i⟩

/-- All that executing a command can do: it is accepted, or it raises a fault, or it is ignored. -/
theorem exec_cases {i : Instr} {s t : State} (h : exec i s = .next t) :
    (s.block.Idle ∧ i.wellFormed = true ∧ ∃ n, t = s.withBlock (acceptCommand (opcodeOf i) n s.block)) ∨
    (¬ (s.block.Idle ∧ i.wellFormed = true) ∧ ((∃ f, t = s.withBlock (takeFault f s.block)) ∨ t = s)) := by
  obtain ⟨hfault, -⟩ | ⟨herr, hbusy, -⟩ | ⟨hidle, -⟩ := gatedWrite_cases (acceptanceOf i) s.block
  · rw [exec_faulted i hfault] at h
    injection h with h
    exact .inr ⟨fun ⟨hidle, _⟩ => hfault hidle.2, .inr h.symm⟩
  · rw [exec_busy i herr hbusy] at h
    injection h with h
    exact .inr ⟨fun ⟨hidle, _⟩ => absurd (hbusy.symm.trans hidle.1) (by decide), .inl ⟨_, h.symm⟩⟩
  · cases hwf : i.wellFormed with
    | true =>
      obtain ⟨n, hn⟩ := acceptanceOf_wellFormed hwf
      rw [exec_idle i hidle, hn] at h
      injection h with h
      exact .inl ⟨hidle, rfl, n, h.symm⟩
    | false =>
      rw [exec_illFormed hidle hwf] at h
      injection h with h
      exact .inr ⟨by simp, .inl ⟨_, h.symm⟩⟩

/-- Settles O38: acceptance changes `OP`, `COUNT`, `LFSR` and the flags, a fault `ERR` and the flags. -/
theorem commandFrame : Obligations.CommandFrame := by
  unfold Obligations.CommandFrame
  intro i s t h
  obtain ⟨hidle, hwf, n, rfl⟩ | ⟨hnot, ⟨f, rfl⟩ | rfl⟩ := exec_cases h
  · refine ⟨rfl, rfl, rfl, rfl, rfl, rfl, ?_, fun _ _ => rfl, ?_⟩
    · rintro (hnot | hnot)
      · exact absurd hidle hnot
      · exact absurd (hwf.symm.trans hnot) (by decide)
    · rintro (rfl | rfl) <;> rfl
  all_goals
    exact ⟨rfl, rfl, rfl, rfl, rfl, rfl, fun _ => ⟨rfl, rfl, rfl⟩, fun hidle hwf => absurd ⟨hidle, hwf⟩ hnot,
      fun _ => rfl⟩

end Sys2Proof.Machine
end

section
/-! PROOFS. `WAIT` (42_host_access.md R101): a turn reads `STATUS` and decides by `DONE` and `ERR`; on a busy block the
ticks between the turns finish the command, on an Idle block with `DONE = 0` they change nothing. -/

namespace Sys2Proof.Machine

/-! ## One turn -/

/-- The test of R101 on the word of `STATUS` reads the two fields (R17). -/
theorem waitOver_iff (b : Block) : waitOver (readIndex b 3) = true ↔ b.done = true ∨ b.err ≠ 0 := by
  obtain ⟨-, hdone, -, herr, -, -⟩ := statusWord_fields b
  have hstatus : readIndex b 3 = statusWord b := rfl
  rw [waitOver, hstatus, hdone, herr, Bool.or_eq_true, bne_iff_ne]

/-- A turn that does not end the loop leaves some ticks and a `WAIT` to come; the gap after the listed ones is 1. -/
theorem waitAgain_eq (gaps : List Nat) : ∃ g gaps',
    waitAgain gaps = List.replicate g (.tick none) ++ [.wait gaps'] ∧
      (gaps'.length < gaps.length ∨ gaps' = gaps ∧ 0 < g) := by
  cases gaps with
  | nil => exact ⟨1, [], rfl, .inr ⟨rfl, Nat.one_pos⟩⟩
  | cons g gaps => exact ⟨g, gaps, rfl, .inl (Nat.lt_succ_self _)⟩

section
variable {s : State} {gaps : List Nat} {rest : List Event}

theorem step_wait (hev : s.events = .wait gaps :: rest) :
    step s = .next (waitTurn gaps { s with events := rest }) :=
  step_cons hev

theorem waitTurn_events_over (h : s.block.done = true ∨ s.block.err ≠ 0) :
    (waitTurn gaps s).events = s.events := by
  rw [waitTurn, if_pos ((waitOver_iff s.block).mpr h)]
  rfl

theorem waitTurn_events_again (hdone : s.block.done = false) (herr : s.block.err = 0) :
    (waitTurn gaps s).events = waitAgain gaps ++ s.events := by
  rw [waitTurn, if_neg (mt (waitOver_iff s.block).mp (by simp [hdone, herr]))]

theorem waitTurn_events_iff :
    (waitTurn gaps s).events = s.events ↔ s.block.done = true ∨ s.block.err ≠ 0 := by
  refine ⟨fun h => ?_, waitTurn_events_over⟩
  by_contra hnot
  obtain ⟨hdone, herr⟩ := not_or.mp hnot
  rw [waitTurn_events_again (by simpa using hdone) (not_not.mp herr), List.append_left_eq_self] at h
  obtain ⟨g, gaps', heq, -⟩ := waitAgain_eq gaps
  simp [heq] at h

end

/-! ## `WAIT` on a busy block -/

/-- After `n` more ticks that name no draw the block `b` is `final`, and the draw counter, `d` before them,
is `draws`. -/
def FinishesIn (final : Block) (draws : Nat) : Nat → Block → Nat → Prop
  | 0, b, d => b = final ∧ d = draws
  | n + 1, b, d => b.busy = true ∧ b.done = false ∧ b.err = 0 ∧ b.count.toNat = n ∧
      d + (if takesDraw b.op then 1 else 0) = draws ∧
      ∃ v, finalResult (afterTicks n b) (Config.draw2 d) = some v ∧ finishWith v (afterTicks n b) = final

section
variable {final : Block} {draws n : Nat} {s : State}

/-- A tick is one of those a busy block still needs; a finished block stays as it is. -/
theorem FinishesIn.step_tick (hidle : final.Idle) {rest : List Event} (hev : s.events = .tick none :: rest)
    (h : FinishesIn final draws n s.block s.draws) :
    ∃ t, step s = .next t ∧ t.events = rest ∧ FinishesIn final draws (n - 1) t.block t.draws := by
  match n, h with
  | 0, h =>
    have hbusy : s.block.busy = false := h.1 ▸ hidle.1
    exact ⟨_, (step_cons hev).trans (tick_notBusy none hbusy), rfl, h⟩
  | 1, ⟨hbusy, _, _, hcount, hdraws, v, hv, hfinal⟩ =>
    refine ⟨_, step_final hev hbusy (BitVec.eq_of_toNat_eq hcount) hv, rfl, hfinal, ?_⟩
    rw [← hdraws]
    split <;> rfl
  | n + 2, ⟨hbusy, hdone, herr, hcount, hdraws, hresult⟩ =>
    have hpos : s.block.count ≠ 0 := fun h => by simp [h] at hcount
    have hcount' : (advancingTick s.block).count.toNat = n := by
      rw [advancingTick_count, count_sub_one_toNat hpos, hcount, Nat.add_sub_cancel]
    exact ⟨_, step_advancing hev hbusy hpos, rfl, hbusy, hdone, herr, hcount', hdraws, hresult⟩

/-- Ticks beyond those the block needs change nothing, so any number of them may follow. -/
theorem FinishesIn.run_ticks (hidle : final.Idle) {g : Nat} {rest : List Event}
    (hev : s.events = List.replicate g (.tick none) ++ rest) (h : FinishesIn final draws n s.block s.draws) :
    ∃ u, run g s = .next u ∧ u.events = rest ∧ FinishesIn final draws (n - g) u.block u.draws := by
  induction g generalizing s n with
  | zero => exact ⟨s, run_zero s, hev, h⟩
  | succ g ih =>
    obtain ⟨t, hstep, htev, ht⟩ := h.step_tick hidle hev
    obtain ⟨u, hrun, huev, hu⟩ := ih htev ht
    refine ⟨u, (run_succ g hstep).trans hrun, huev, ?_⟩
    rwa [Nat.sub_sub, Nat.add_comm 1 g] at hu

/-- `WAIT` ends with the command finished, whatever its gaps: each turn uses up a listed gap or falls before a tick. -/
theorem FinishesIn.run_wait (hidle : final.Idle) (hfinalDone : final.done = true) {gaps : List Nat}
    {rest : List Event} (hev : s.events = .wait gaps :: rest) (h : FinishesIn final draws n s.block s.draws) :
    ∃ k u, run k s = .next u ∧ u.events = rest ∧ u.block = final ∧ u.draws = draws := by
  induction hm : n + gaps.length using Nat.strong_induction_on generalizing s n gaps with
  | _ m ih =>
  have hturn := step_wait hev
  cases n with
  | zero =>
    obtain ⟨hblock, hdraws⟩ := h
    have hover : s.block.done = true := hblock ▸ hfinalDone
    exact ⟨1, _, run_succ 0 hturn, waitTurn_events_over (.inl hover), (waitTurn_block _ _).trans hblock,
      (waitTurn_draws _ _).trans hdraws⟩
  | succ n =>
    have ⟨_, hdone, herr, _⟩ := h
    obtain ⟨g, gaps', heq, hless⟩ := waitAgain_eq gaps
    have hmeasure : n + 1 - g + gaps'.length < m := by
      rcases hless with hlt | ⟨rfl, hg⟩ <;> omega
    have htev := waitTurn_events_again (gaps := gaps) (s := { s with events := rest }) hdone herr
    rw [heq, List.append_assoc] at htev
    have ht : FinishesIn final draws (n + 1) (waitTurn gaps { s with events := rest }).block
        (waitTurn gaps { s with events := rest }).draws := by
      rwa [waitTurn_block, waitTurn_draws]
    obtain ⟨t, hrunTicks, htev, ht⟩ := ht.run_ticks hidle htev
    obtain ⟨k, u, hrun, hu⟩ := ih _ hmeasure htev ht rfl
    exact ⟨g + k + 1, u, (run_succ _ hturn).trans ((run_add g k hrunTicks).trans hrun), hu⟩

end

/-! ## `WAIT` on an Idle block with `DONE = 0` -/

/-- What every step keeps going, runs of every length keep going. -/
theorem exists_run_of_progress {P : State → Prop} (hP : ∀ s, P s → ∃ t, step s = .next t ∧ P t) (k : Nat) {s : State}
    (hs : P s) : ∃ u, run k s = .next u ∧ P u := by
  induction k generalizing s with
  | zero => exact ⟨s, run_zero s, hs⟩
  | succ k ih =>
    obtain ⟨t, hstep, ht⟩ := hP s hs
    obtain ⟨u, hrun, hu⟩ := ih ht
    exact ⟨u, (run_succ k hstep).trans hrun, hu⟩

/-- The block is `b`, and nothing but ticks and a `WAIT` is to come. -/
def Waiting (b : Block) (s : State) : Prop :=
  s.block = b ∧ ∃ g gaps, s.events = List.replicate g (.tick none) ++ [.wait gaps]

theorem Waiting.step {b : Block} (hidle : b.Idle) (hdone : b.done = false) {s : State} (h : Waiting b s) :
    ∃ t, step s = .next t ∧ Waiting b t := by
  obtain ⟨rfl, g, gaps, hev⟩ := h
  cases g with
  | zero =>
    obtain ⟨g, gaps', heq, -⟩ := waitAgain_eq gaps
    refine ⟨_, step_wait hev, waitTurn_block _ _, g, gaps', ?_⟩
    rw [waitTurn_events_again (s := { s with events := [] }) hdone hidle.2, heq, List.append_nil]
  | succ g => exact ⟨_, (step_cons hev).trans (tick_notBusy none hidle.1), rfl, g, gaps, rfl⟩

/-! ## The end of `WAIT` -/

/-- The block a busy one finishes with exists where `OP` is a command's opcode, which R24 (c) says. -/
theorem finishesIn_of_busy {b : Block} (d : Nat) (hinv : b.Inv) (hbusy : b.busy = true) :
    ∃ v, FinishesIn (finishWith v (afterTicks b.count.toNat b)) (d + if takesDraw b.op then 1 else 0)
      (b.count.toNat + 1) b d := by
  have hdone : b.done = false := by
    by_contra hd
    exact hinv.notBusyAndDone ⟨hbusy, by simpa using hd⟩
  obtain ⟨v, hv⟩ : ∃ v, finalResult (afterTicks b.count.toNat b) (Config.draw2 d) = some v := by
    rw [← Option.isSome_iff_exists, finalResult_isSome, afterTicks_op]
    exact decide_eq_true (hinv.busyHasCommand hbusy)
  exact ⟨v, hbusy, hdone, hinv.err_eq_zero_of_busy hbusy, rfl, rfl, v, hv, rfl⟩

/-- Settles O42: one turn, the loop on a busy block, and the loop that nothing ends. -/
theorem waitEndsWithDoneOrFaultOnly : Obligations.WaitEndsWithDoneOrFaultOnly := by
  unfold Obligations.WaitEndsWithDoneOrFaultOnly
  refine ⟨fun s gaps rest hev => ?turn, fun s gaps rest hinv hbusy hev => ?busy, fun s gaps hidle hdone hev k => ?idle⟩
  case turn =>
    exact ⟨_, step_wait hev, waitTurn_block _ _, waitTurn_draws _ _, waitTurn_reads _ _, waitTurn_events_iff⟩
  case busy =>
    obtain ⟨v, hfin⟩ := finishesIn_of_busy s.draws hinv hbusy
    have herr : (finishWith v (afterTicks s.block.count.toNat s.block)).err = 0 := by
      simpa using hinv.err_eq_zero_of_busy hbusy
    obtain ⟨k, u, hrun, huev, hublock, -⟩ := hfin.run_wait ⟨rfl, herr⟩ rfl hev
    exact ⟨k, u, hrun, huev, hublock ▸ rfl, hublock ▸ herr⟩
  case idle =>
    obtain ⟨u, hrun, hublock, g, gaps', huev⟩ :=
      exists_run_of_progress (fun s => Waiting.step hidle hdone) k (s := s) ⟨rfl, 0, gaps, hev⟩
    exact ⟨u, hrun, hublock, gaps', by simp [huev]⟩

end Sys2Proof.Machine
end

section
/-! PROOFS. The call sequences of 30_encoding.md R54: each leaves the host with the value of the source's function
(42_host_access.md R103), under every schedule of ticks inside its `WAIT`. -/

namespace Sys2Proof.Machine

theorem HostObtains.cons {s t : State} {e : Event} {prog : List Event} {value : Word} {draws : Nat}
    (hstep : step (s.withSchedule (e :: prog)) = .next (t.withSchedule prog)) (hev : t.events = s.events)
    (hdraws : t.draws = s.draws) (h : HostObtains t prog value draws) : HostObtains s (e :: prog) value draws := by
  obtain ⟨k, u, hrun, hu⟩ := h
  rw [hev, hdraws] at hu
  exact ⟨k + 1, u, (run_succ k hstep).trans hrun, hu⟩

/-- On an Idle block, the program after the write of an operand runs with that operand (R97, R98). -/
theorem HostObtains.write {s : State} {i : RegIndex} {v : Word} {prog : List Event} {value : Word} {draws : Nat}
    (hidle : s.block.Idle) (hi : i.toNat ≤ 2)
    (h : HostObtains (s.withBlock (writePerform i v s.block)) prog value draws) :
    HostObtains s (.hostWrite i v :: prog) value draws := by
  refine HostObtains.cons (t := s.withBlock (writePerform i v s.block)) ?_ rfl rfl h
  rw [← writtenBlock_idle v hi hidle]
  exact (step_cons (e := .hostWrite i v) (rest := prog ++ s.events) rfl).trans
    (hostWrite_eq_writtenBlock i v (s.withSchedule prog))

/-- From the accepted command on: `WAIT` ends with the command finished, and `DOUT` is read. -/
theorem hostObtains_waitRead {s : State} {gaps : List Nat} {final : Block} {draws n : Nat} (hidle : final.Idle)
    (hdone : final.done = true) (h : FinishesIn final (s.draws + draws) n s.block s.draws) :
    HostObtains s [.wait gaps, .hostRead (indexOf .dout)] final.dout draws := by
  obtain ⟨k, u, hrun, huev, rfl, hudraws⟩ :=
    FinishesIn.run_wait (s := s.withSchedule [.wait gaps, .hostRead (indexOf .dout)]) hidle hdone rfl h
  exact ⟨k + 1, _, (run_add k 1 hrun).trans (run_succ 0 (step_hostRead huev)), rfl, rfl, hidle, hdone, hudraws⟩

/-- Past the gate, the word a command encodes to is the acceptance of that command. -/
theorem writePerform_command (i : Instr) : writePerform 2 (encode i) = acceptanceOf i := by
  have hperform : writePerform 2 (encode i) = commandPerform (encode i) := rfl
  have hdec : decode (encode i) = some i := (wordDecodesExactlyToWhatEncodesIt _ i).mpr rfl
  rw [hperform, commandPerform_eq_performDecoded, hdec, performDecoded]

/-- A command's line, `WAIT`, and a read of `DOUT`: the host obtains what R66 gives for the accepted block. -/
theorem hostObtains_command {s : State} (gaps : List Nat) {i : Instr} {n : Count} {value : Word} (hidle : s.block.Idle)
    (haccept : acceptanceOf i = acceptCommand (opcodeOf i) n)
    (hvalue : finalResult (afterTicks n.toNat (acceptCommand (opcodeOf i) n s.block)) (Config.draw2 s.draws) =
      some value) :
    HostObtains s [commandLine i, .wait gaps, .hostRead (indexOf .dout)] value
      (if takesDraw (opcodeOf i) then 1 else 0) := by
  refine HostObtains.write hidle (by decide) ?_
  rw [indexOf, writePerform_command, haccept]
  have herr : (finishWith value (afterTicks n.toNat (acceptCommand (opcodeOf i) n s.block))).err = 0 := by
    simpa using hidle.2
  exact hostObtains_waitRead (n := n.toNat + 1) ⟨rfl, herr⟩ rfl ⟨rfl, rfl, hidle.2, rfl, rfl, value, hvalue, rfl⟩

/-- Settles O41: each sequence writes its operands and then runs its command. -/
theorem hostCallReturnsFunctionValue : Obligations.HostCallReturnsFunctionValue := by
  unfold Obligations.HostCallReturnsFunctionValue
  intro s gaps hidle
  refine ⟨fun x => .write hidle (by decide) ?advance, fun x n => .write hidle (by decide) ?stream,
    fun p => .write hidle (by decide) ?maskIn, fun w => .write hidle (by decide) ?maskOut,
    fun m i p => .write hidle (by decide) (.write hidle (by decide) ?encode),
    fun m i w => .write hidle (by decide) (.write hidle (by decide) ?decode)⟩
  case advance => exact hostObtains_command gaps hidle rfl (accepted_result_keystream 1 1 _ _ (.inl rfl))
  case stream => exact hostObtains_command gaps hidle rfl (accepted_result_keystream n.toNat n _ _ (.inr rfl))
  case maskIn => exact hostObtains_command gaps hidle rfl (accepted_result_maskIn 0 0 _ _)
  case maskOut => exact hostObtains_command gaps hidle rfl (accepted_result_maskOut 0 0 _ _)
  case encode =>
    refine hostObtains_command gaps hidle (acceptSlotCommand_slot 5 i) ?_
    rw [slotStepCount_toNat]
    exact accepted_result_encode _ _ _ i
  case decode =>
    refine hostObtains_command gaps hidle (acceptSlotCommand_slot 6 i) ?_
    rw [slotStepCount_toNat]
    exact accepted_result_decode _ _ _ i

end Sys2Proof.Machine
end

section
/-! PROOFS. The Vault Codec's `parse` (43_vault_software.md R117, R131): where an entry's bytes stand, which checks fail
on a buffer, and what an accepted one holds. -/

namespace Sys2Proof.Machine

/-! ## Entries and records -/

/-- The `k`-th entry of a buffer, by the places of its bytes (R119). -/
def entryAt (rest : List Byte) (k : Nat) : Byte × Word :=
  (rest.getD (5 * k) 0, bytesToWord (rest.getD (5 * k + 1) 0) (rest.getD (5 * k + 2) 0)
    (rest.getD (5 * k + 3) 0) (rest.getD (5 * k + 4) 0))

theorem entries_eq_map_entryAt (rest : List Byte) :
    entries rest = (List.range (rest.length / 5)).map (entryAt rest) := by
  induction rest using entries.induct with
  | case1 id a b c d rest ih =>
    have hlength : (id :: a :: b :: c :: d :: rest).length / 5 = rest.length / 5 + 1 :=
      Nat.add_div_right rest.length (show 0 < 5 by decide)
    rw [hlength, List.range_succ_eq_map, List.map_cons, List.map_map, entries, ih]
    rfl
  | case2 rest hshort =>
    have hlength : rest.length < 5 := by
      match rest, hshort with
      | [], _ | [_], _ | [_, _], _ | [_, _, _], _ | [_, _, _, _], _ => simp
      | _ :: _ :: _ :: _ :: _ :: _, hshort => exact (hshort _ _ _ _ _ _ rfl).elim
    rw [Nat.div_eq_of_lt hlength, entries]
    · rfl
    · exact hshort

/-- The file byte of a slot. -/
def slotByte (id : Slot) : Byte := BitVec.ofNat 8 id.val

theorem slotByte_toNat (id : Slot) : (slotByte id).toNat = id.val :=
  Nat.mod_eq_of_lt (id.isLt.trans (by decide))

theorem slotByte_injective : Function.Injective slotByte := fun a b h =>
  Fin.ext (by rw [← slotByte_toNat a, h, slotByte_toNat])

/-- The entry that a record is read from. -/
def recordEntry (r : RawRecord) : Byte × Word := (slotByte r.slot, r.word)

theorem entryRecord_recordEntry (r : RawRecord) : entryRecord (recordEntry r) = some r := by
  have hlegal : (slotByte r.slot).toNat < Config.slotMax + 1 := (slotByte_toNat r.slot).trans_lt r.slot.isLt
  refine (dif_pos hlegal).trans (congrArg some ?_)
  exact congrArg (RawRecord.mk · r.word) (Fin.ext (slotByte_toNat r.slot))

theorem exists_recordEntry_eq {e : Byte × Word} (h : e.1.toNat ≤ 99) : ∃ r, recordEntry r = e :=
  ⟨⟨⟨e.1.toNat, Nat.lt_succ_of_le h⟩, e.2⟩, Prod.ext (BitVec.eq_of_toNat_eq (slotByte_toNat _)) rfl⟩

theorem filterMap_entryRecord_map (rs : List RawRecord) : (rs.map recordEntry).filterMap entryRecord = rs := by
  rw [List.filterMap_map, show entryRecord ∘ recordEntry = some from funext entryRecord_recordEntry,
    List.filterMap_some]

/-- No entry with a legal id is lost. -/
theorem map_recordEntry_filterMap {es : List (Byte × Word)} (h : ∀ e ∈ es, e.1.toNat ≤ 99) :
    (es.filterMap entryRecord).map recordEntry = es := by
  obtain ⟨rs, rfl⟩ : es ∈ Set.range (List.map recordEntry) := by
    rw [Set.range_list_map]
    exact fun e he => exists_recordEntry_eq (h e he)
  rw [filterMap_entryRecord_map]

/-! ## The declared entries and the checks on them -/

/-- The declared entries that are wholly present (log 13). -/
def declared (n : Byte) (rest : List Byte) : List (Byte × Word) := (entries rest).take n.toNat

theorem declared_eq_map (n : Byte) (rest : List Byte) :
    declared n rest = (List.range (min n.toNat (rest.length / 5))).map (entryAt rest) := by
  rw [declared, entries_eq_map_entryAt, ← List.map_take, List.take_range]

theorem mem_declared {n : Byte} {rest : List Byte} {e : Byte × Word} :
    e ∈ declared n rest ↔ ∃ k < n.toNat, 5 * k + 5 ≤ rest.length ∧ entryAt rest k = e := by
  rw [declared_eq_map, List.mem_map]
  refine exists_congr fun k => ?_
  rw [List.mem_range, ← and_assoc]
  exact and_congr_left' (by omega)

/-- What it means that a check of `parse` after the empty check fails (R117, log 13). -/
def CheckFails (n : Byte) (rest : List Byte) : ParseError → Prop
  | .emptyInput => False
  | .truncatedInput => rest.length < 5 * n.toNat
  | .invalidSlot => ∃ k < n.toNat, 5 * k + 5 ≤ rest.length ∧ 99 < (rest.getD (5 * k) 0).toNat
  | .duplicateSlot => ∃ j k, j < k ∧ k < n.toNat ∧ 5 * k + 5 ≤ rest.length ∧
      rest.getD (5 * j) 0 = rest.getD (5 * k) 0

theorem failingChecks_eq (n : Byte) (rest : List Byte) : failingChecks n rest =
    (if rest.length < 5 * n.toNat then [.truncatedInput] else [])
      ++ (if ((declared n rest).map (·.1)).any (fun id => decide (id.toNat > Config.slotMax)) then [.invalidSlot] else [])
      ++ (if ((declared n rest).map (·.1)).Nodup then [] else [.duplicateSlot]) := rfl

theorem declared_any_illegal {n : Byte} {rest : List Byte} :
    ((declared n rest).map (·.1)).any (fun id => decide (id.toNat > Config.slotMax)) = true ↔
      CheckFails n rest .invalidSlot := by
  simp only [List.any_map, List.any_eq_true, mem_declared, Function.comp, decide_eq_true_eq]
  constructor
  · rintro ⟨_, ⟨k, hk, hrest, rfl⟩, hid⟩
    exact ⟨k, hk, hrest, hid⟩
  · rintro ⟨k, hk, hrest, hid⟩
    exact ⟨_, ⟨k, hk, hrest, rfl⟩, hid⟩

theorem declared_not_nodup {n : Byte} {rest : List Byte} :
    ¬ ((declared n rest).map (·.1)).Nodup ↔ CheckFails n rest .duplicateSlot := by
  rw [declared_eq_map, List.map_map, List.nodup_iff_pairwise_ne, List.pairwise_map, List.pairwise_iff_getElem]
  simp only [List.length_range, List.getElem_range]
  constructor
  · intro h
    push Not at h
    obtain ⟨j, k, -, hk, hjk, heq⟩ := h
    exact ⟨j, k, hjk, by omega, by omega, heq⟩
  · rintro ⟨j, k, hjk, hk, hrest, heq⟩ h
    exact h j k (by omega) (by omega) hjk heq

theorem mem_failingChecks {n : Byte} {rest : List Byte} {e : ParseError} :
    e ∈ failingChecks n rest ↔ CheckFails n rest e := by
  simp only [failingChecks_eq, List.mem_append, List.mem_ite_nil_right, List.mem_ite_nil_left, declared_any_illegal,
    declared_not_nodup, List.mem_singleton]
  cases e <;> simp [CheckFails]

theorem failingChecks_eq_nil_iff {n : Byte} {rest : List Byte} :
    failingChecks n rest = [] ↔ ∀ e, ¬ CheckFails n rest e := by
  simp only [List.eq_nil_iff_forall_not_mem, mem_failingChecks]

/-! ## What `parse` answers -/

/-- Whatever the ranks, an error is reported exactly when a check fails, and it is one that fails. -/
theorem reported_cases (p : CodecPolicy) (es : List ParseError) :
    (es = [] ∧ reported p es = none) ∨ ∃ e ∈ es, reported p es = some e := by
  cases es with
  | nil => exact .inl ⟨rfl, rfl⟩
  | cons e es =>
    right
    obtain ⟨-, hnone⟩ | ⟨f, hf, hsome⟩ := reported_cases p es
    · exact ⟨e, List.mem_cons_self, by rw [reported, hnone]⟩
    · by_cases hrank : p.rank f < p.rank e
      · exact ⟨f, List.mem_cons_of_mem e hf, by simp only [reported, hsome, if_pos hrank]⟩
      · exact ⟨e, List.mem_cons_self, by simp only [reported, hsome, if_neg hrank]⟩

/-- The three ways `parse` answers on a buffer with a count byte: a failing check, a byte too many, the records. -/
theorem parse_cons_cases (p : CodecPolicy) (n : Byte) (rest : List Byte) :
    (∃ e, CheckFails n rest e ∧ parse p (n :: rest) = .error e) ∨
    ((∀ e, ¬ CheckFails n rest e) ∧ 5 * n.toNat < rest.length ∧
      ∃ e, p.trailing = some e ∧ parse p (n :: rest) = .error e) ∨
    ((∀ e, ¬ CheckFails n rest e) ∧ parse p (n :: rest) = .ok ((declared n rest).filterMap entryRecord)) := by
  obtain ⟨hnil, hreported⟩ | ⟨e, he, hreported⟩ := reported_cases p (failingChecks n rest)
  · have hpass := failingChecks_eq_nil_iff.mp hnil
    right
    by_cases hlength : 5 * n.toNat < rest.length
    · cases htrailing : p.trailing with
      | none => exact .inr ⟨hpass, by simp only [parse, hreported, if_pos hlength, htrailing, declared]⟩
      | some e => exact .inl ⟨hpass, hlength, e, rfl, by simp only [parse, hreported, if_pos hlength, htrailing]⟩
    · exact .inr ⟨hpass, by simp only [parse, hreported, if_neg hlength, declared]⟩
  · exact .inl ⟨e, mem_failingChecks.mp he, by simp only [parse, hreported]⟩

theorem parse_error {p : CodecPolicy} {n : Byte} {rest : List Byte} {e : ParseError}
    (h : parse p (n :: rest) = .error e) :
    CheckFails n rest e ∨ (p.trailing = some e ∧ 5 * n.toNat < rest.length) := by
  obtain ⟨f, hf, hparse⟩ | ⟨-, hlength, f, hf, hparse⟩ | ⟨-, hparse⟩ := parse_cons_cases p n rest
  · cases h.symm.trans hparse
    exact .inl hf
  · cases h.symm.trans hparse
    exact .inr ⟨hf, hlength⟩
  · cases h.symm.trans hparse

theorem parse_of_passes (p : CodecPolicy) {n : Byte} {rest : List Byte} (hpass : ∀ e, ¬ CheckFails n rest e)
    (hlength : rest.length = 5 * n.toNat) :
    parse p (n :: rest) = .ok ((declared n rest).filterMap entryRecord) := by
  obtain ⟨f, hf, -⟩ | ⟨-, hlong, -⟩ | ⟨-, hparse⟩ := parse_cons_cases p n rest
  · exact absurd hf (hpass f)
  · omega
  · exact hparse

/-- An accepted buffer passes every check, and its records are those of its declared entries, each of which is legal. -/
theorem parse_ok {p : CodecPolicy} {n : Byte} {rest : List Byte} {rs : List RawRecord}
    (h : parse p (n :: rest) = .ok rs) :
    (∀ e, ¬ CheckFails n rest e) ∧ rs.map recordEntry = declared n rest := by
  obtain ⟨f, -, hparse⟩ | ⟨-, -, f, -, hparse⟩ | ⟨hpass, hparse⟩ := parse_cons_cases p n rest
  · cases h.symm.trans hparse
  · cases h.symm.trans hparse
  · cases h.symm.trans hparse
    refine ⟨hpass, map_recordEntry_filterMap fun e he => Nat.not_lt.mp fun hid => ?_⟩
    obtain ⟨k, hk, hrest, rfl⟩ := mem_declared.mp he
    exact hpass .invalidSlot ⟨k, hk, hrest, hid⟩

theorem map_recordEntry_ids (rs : List RawRecord) :
    (rs.map recordEntry).map (·.1) = (rs.map (·.slot)).map slotByte := by
  rw [List.map_map, List.map_map]
  rfl

theorem parse_ok_slots_nodup {p : CodecPolicy} {bytes : List Byte} {rs : List RawRecord} (h : parse p bytes = .ok rs) :
    (rs.map (·.slot)).Nodup := by
  match bytes, h with
  | n :: rest, h =>
    obtain ⟨hpass, hrecords⟩ := parse_ok h
    have hids : ((declared n rest).map (·.1)).Nodup := not_not.mp (declared_not_nodup.not.mpr (hpass .duplicateSlot))
    rw [← hrecords, map_recordEntry_ids] at hids
    exact hids.of_map

/-- An accepted buffer holds at least its declared records, each at its place. -/
theorem parse_ok_entries {p : CodecPolicy} {n : Byte} {rest : List Byte} {rs : List RawRecord}
    (h : parse p (n :: rest) = .ok rs) :
    5 * n.toNat ≤ rest.length ∧ rs.map recordEntry = (List.range n.toNat).map (entryAt rest) := by
  obtain ⟨hpass, hrecords⟩ := parse_ok h
  have hlength : 5 * n.toNat ≤ rest.length := Nat.not_lt.mp (hpass .truncatedInput)
  refine ⟨hlength, ?_⟩
  rw [hrecords, declared_eq_map, min_eq_left (by omega)]

/-- Settles O52: the answers of `parse`, each on its own side. -/
theorem parseAcceptsExactlyValidVaults : Obligations.ParseAcceptsExactlyValidVaults := by
  unfold Obligations.ParseAcceptsExactlyValidVaults
  refine fun p => ⟨rfl, fun n rest => ⟨fun e h => ?error, fun hlength hlegal hdistinct => ?accepted,
    fun rs h => ?records⟩⟩
  case error =>
    obtain hfails | htrailing := parse_error h
    · cases e with
      | emptyInput => exact hfails.elim
      | truncatedInput => exact .inl ⟨rfl, hfails⟩
      | invalidSlot => exact .inr (.inl ⟨rfl, hfails⟩)
      | duplicateSlot => exact .inr (.inr (.inl ⟨rfl, hfails⟩))
    · exact .inr (.inr (.inr htrailing))
  case accepted =>
    refine ⟨_, parse_of_passes p (fun e hfails => ?_) hlength⟩
    cases e with
    | emptyInput => exact hfails
    | truncatedInput => exact hfails.ne hlength
    | invalidSlot =>
      obtain ⟨k, hk, -, hid⟩ := hfails
      exact hid.not_ge (hlegal k hk)
    | duplicateSlot =>
      obtain ⟨j, k, hjk, hk, -, heq⟩ := hfails
      exact hdistinct j k hjk hk heq
  case records =>
    obtain ⟨hlength, hentries⟩ := parse_ok_entries h
    have hcount : rs.length = n.toNat := by simpa using congrArg List.length hentries
    have hnodup := parse_ok_slots_nodup h
    have hmax : rs.length ≤ 100 := by simpa [Config.slotMax] using hnodup.length_le_card
    refine ⟨hcount, hcount ▸ hmax, hnodup, hlength, fun k r hr => ?_⟩
    have hk : k < n.toNat := hcount ▸ (List.getElem?_eq_some_iff.mp hr).1
    have hentry : recordEntry r = entryAt rest k := by
      simpa [hr, List.getElem?_range hk] using congrArg (·[k]?) hentries
    obtain ⟨hid, hword⟩ := Prod.ext_iff.mp hentry
    exact ⟨(slotByte_toNat r.slot).symm.trans (congrArg BitVec.toNat hid), hword⟩

end Sys2Proof.Machine
end

section
/-! PROOFS. From pins to a vault file and back (43_vault_software.md R114, R118, R119, R129): the entries of a saved
file are those of the records saved, and each decodes to the pin it was made from, less bits 31 and 30. -/

namespace Sys2Proof.Machine

/-! ## The saved file and its entries (R119) -/

/-- The record that a saved one is read back as. -/
def SaveRecord.raw (r : SaveRecord) : RawRecord := ⟨r.slot, r.word⟩

theorem recordBytes_length (r : SaveRecord) : (recordBytes r).length = 5 := rfl

theorem entries_recordBytes_append (r : SaveRecord) (bytes : List Byte) :
    entries (recordBytes r ++ bytes) = recordEntry r.raw :: entries bytes :=
  congrArg (fun w => (slotByte r.slot, w) :: entries bytes) (bytesToWord_of_fields r.word)

theorem entries_flatMap_recordBytes (rs : List SaveRecord) :
    entries (rs.flatMap recordBytes) = (rs.map SaveRecord.raw).map recordEntry := by
  induction rs with
  | nil => rfl
  | cons r rs ih => rw [List.flatMap_cons, entries_recordBytes_append, ih, List.map_cons, List.map_cons]

theorem length_flatMap_recordBytes (rs : List SaveRecord) : (rs.flatMap recordBytes).length = 5 * rs.length := by
  simp [List.length_flatMap, recordBytes_length, Nat.mul_comm]

/-- A buffer that holds the entries of records of distinct slots and nothing else parses to these records. -/
theorem parse_of_entries (p : CodecPolicy) {n : Byte} {rest : List Byte} {rs : List RawRecord}
    (hlength : rest.length = 5 * n.toNat) (hentries : entries rest = rs.map recordEntry)
    (hcount : rs.length = n.toNat) (hnodup : (rs.map (·.slot)).Nodup) : parse p (n :: rest) = .ok rs := by
  have hdeclared : declared n rest = rs.map recordEntry := by
    rw [declared, hentries, List.take_of_length_le (by rw [List.length_map, hcount])]
  have hpass (e : ParseError) : ¬ CheckFails n rest e := fun hfails => by
    cases e with
    | emptyInput => exact hfails
    | truncatedInput => exact hfails.ne hlength
    | invalidSlot =>
      obtain ⟨k, hk, hrest, hid⟩ := hfails
      have hmem : entryAt rest k ∈ rs.map recordEntry := hdeclared ▸ mem_declared.mpr ⟨k, hk, hrest, rfl⟩
      obtain ⟨r, -, hr⟩ := List.mem_map.mp hmem
      have hlegal : (entryAt rest k).1.toNat ≤ 99 :=
        hr ▸ (slotByte_toNat r.slot).trans_le (Nat.le_of_lt_succ r.slot.isLt)
      exact hid.not_ge hlegal
    | duplicateSlot =>
      refine declared_not_nodup.mpr hfails ?_
      rw [hdeclared, map_recordEntry_ids]
      exact hnodup.map slotByte_injective
  rw [parse_of_passes p hpass hlength, hdeclared, filterMap_entryRecord_map]

/-- Distinct slots are at most 100, so the count byte of the file is the number of records in it. -/
theorem parse_serialize (p : CodecPolicy) {rs : List SaveRecord} (hnodup : (rs.map (·.slot)).Nodup) :
    parse p (serialize rs) = .ok ((savedRecords rs).map SaveRecord.raw) := by
  have hsaved : ((savedRecords rs).map (·.slot)).Nodup := hnodup.sublist (List.filter_sublist.map _)
  have hmax : (savedRecords rs).length ≤ 100 := by simpa [Config.slotMax] using hsaved.length_le_card
  have hcount : (BitVec.ofNat 8 (savedRecords rs).length).toNat = (savedRecords rs).length :=
    Nat.mod_eq_of_lt (by omega)
  refine parse_of_entries p ?_ (entries_flatMap_recordBytes _) ?_ ?_
  · rw [length_flatMap_recordBytes, hcount]
  · rw [List.length_map, hcount]
  · rw [List.map_map]
    exact hsaved

/-! ## Sealed pins (R118) -/

theorem sealRecords_pins (master : Word) (draws : Nat → Draw) (rs : List PinRecord) :
    (sealRecords master draws rs).map (fun r => PinRecord.mk r.slot r.pin) = rs := by
  induction rs generalizing draws with
  | nil => rfl
  | cons r rs ih => rw [sealRecords, List.map_cons, ih]

/-- A sealed record decodes to its plaintext under the key it was sealed with. -/
theorem cipherDecode_of_mem_sealRecords {master : Word} {draws : Nat → Draw} {rs : List PinRecord} {r : SaveRecord}
    (h : r ∈ sealRecords master draws rs) : cipherDecode master r.slot r.word = r.plaintext := by
  induction rs generalizing draws with
  | nil => exact absurd h List.not_mem_nil
  | cons q qs ih =>
    obtain rfl | h := List.mem_cons.mp h
    · exact cipherDecode_cipherEncode master q.pin q.slot (draws 0)
    · exact ih h

/-- What a vault keeps of pins: those whose low 30 bits are not 0, without bits 31 and 30 (R114, log 22). -/
def keptPins (rs : List PinRecord) : List PinRecord :=
  (rs.filter fun r => maskOut r.pin != 0).map fun r => ⟨r.slot, maskOut r.pin⟩

theorem openRecords_savedRecords (master : Word) (draws : Nat → Draw) (rs : List PinRecord) :
    openRecords master ((savedRecords (sealRecords master draws rs)).map SaveRecord.raw) = keptPins rs := by
  calc openRecords master ((savedRecords (sealRecords master draws rs)).map SaveRecord.raw)
      = (savedRecords (sealRecords master draws rs)).map fun r => ⟨r.slot, r.plaintext⟩ := by
        rw [openRecords, List.map_map]
        exact List.map_congr_left fun r hr =>
          congrArg (PinRecord.mk r.slot) (cipherDecode_of_mem_sealRecords (List.mem_of_mem_filter hr))
    _ = keptPins ((sealRecords master draws rs).map fun r => ⟨r.slot, r.pin⟩) := by
        rw [keptPins, List.filter_map, List.map_map]
        rfl
    _ = keptPins rs := by rw [sealRecords_pins]

theorem parse_saveVault (p : CodecPolicy) (master : Word) (draws : Nat → Draw) {rs : List PinRecord}
    (hnodup : (rs.map (·.slot)).Nodup) :
    ∃ saved, parse p (saveVault master draws rs) = .ok saved ∧ openRecords master saved = keptPins rs := by
  refine ⟨_, parse_serialize p ?_, openRecords_savedRecords master draws rs⟩
  rw [← sealRecords_pins master draws rs, List.map_map] at hnodup
  exact hnodup

/-- Settles O53: pins below `2^30` are kept as they are. -/
theorem savedVaultOpensToItsPins : Obligations.SavedVaultOpensToItsPins := by
  unfold Obligations.SavedVaultOpensToItsPins
  intro p master draws rs hnodup hpins
  obtain ⟨saved, hparse, hopen⟩ := parse_saveVault p master draws hnodup
  have hkept : keptPins rs = rs.filter fun r => r.pin != 0 := by
    rw [keptPins, List.filter_congr fun r hr => by rw [maskOut_of_lt (hpins r hr)]]
    refine (List.map_congr_left fun r hr => ?_).trans (List.map_id _)
    exact congrArg (PinRecord.mk r.slot) (maskOut_of_lt (hpins r (List.mem_of_mem_filter hr)))
  rw [hparse, ← hkept, ← hopen]
  rfl

theorem pin_ne_zero_of_mem_keptPins {rs : List PinRecord} {q : PinRecord} (h : q ∈ keptPins rs) : q.pin ≠ 0 := by
  obtain ⟨r, hr, rfl⟩ := List.mem_map.mp h
  exact bne_iff_ne.mp (List.mem_filter.mp hr).2

/-- Settles O59: the records saved open to the kept pins, none of which is 0. -/
theorem savingNeverPersistsZeroPin : Obligations.SavingNeverPersistsZeroPin := by
  unfold Obligations.SavingNeverPersistsZeroPin
  intro p master draws rs hnodup
  obtain ⟨saved, hparse, hopen⟩ := parse_saveVault p master draws hnodup
  refine ⟨saved, hparse, fun r hr => ?_, ?_⟩
  · have hmem : ⟨r.slot, cipherDecode master r.slot r.word⟩ ∈ openRecords master saved := List.mem_map_of_mem hr
    exact pin_ne_zero_of_mem_keptPins (hopen ▸ hmem)
  · have hmask (w : Word) : maskOut w = w &&& 0x3FFFFFFF#32 := rfl
    simpa [openRecords, keptPins, Function.comp_def, hmask] using congrArg (List.map fun q => (q.slot, q.pin)) hopen

end Sys2Proof.Machine
end

section
/-! PROOFS. The ways in from bytes (43_vault_software.md R114, R129 to R131): the loader's sort keeps every record, and
the editor and the engine see what the loader answers. -/

namespace Sys2Proof.Machine

/-- The loader's sort is the library's insertion sort by slot. -/
theorem sortBySlot_eq (rs : List RawRecord) :
    sortBySlot rs = rs.insertionSort (Order.Preimage RawRecord.slot (· ≤ ·)) := by
  have hinsert (r : RawRecord) (qs : List RawRecord) :
      insertBySlot r qs = qs.orderedInsert (Order.Preimage RawRecord.slot (· ≤ ·)) r := by
    induction qs with
    | nil => rfl
    | cons q qs ih => rw [insertBySlot, ih]; rfl
  induction rs with
  | nil => rfl
  | cons r rs ih => rw [sortBySlot, ih, hinsert, List.insertionSort_cons]

theorem sortBySlot_perm (rs : List RawRecord) : (sortBySlot rs).Perm rs :=
  sortBySlot_eq rs ▸ List.perm_insertionSort _ rs

theorem sortBySlot_pairwise {rs : List RawRecord} (hnodup : (rs.map (·.slot)).Nodup) :
    (sortBySlot rs).Pairwise (fun a b => a.slot < b.slot) := by
  have hle : (sortBySlot rs).Pairwise (Order.Preimage RawRecord.slot (· ≤ ·)) :=
    sortBySlot_eq rs ▸ List.pairwise_insertionSort _ rs
  have hne : (sortBySlot rs).Pairwise (fun a b => a.slot ≠ b.slot) :=
    List.pairwise_map.mp (((sortBySlot_perm rs).map _).nodup_iff.mpr hnodup)
  exact hle.imp₂ (fun _ _ => lt_of_le_of_ne) hne

theorem loadVault_of_parse_error {p : CodecPolicy} {bytes : List Byte} {e : ParseError} (h : parse p bytes = .error e) :
    loadVault p bytes = .error e := by
  rw [loadVault, h]
  rfl

theorem loadVault_of_parse_ok {p : CodecPolicy} {bytes : List Byte} {rs : List RawRecord} (h : parse p bytes = .ok rs) :
    loadVault p bytes = .ok (sortBySlot rs) := by
  rw [loadVault, h]
  rfl

theorem crackVault_of_loadVault {p : CodecPolicy} {bytes : List Byte} {vault : List RawRecord}
    (h : loadVault p bytes = .ok vault) (mode : SearchMode) (T : Nat) (failed : Nat → Bool) :
    crackVault p mode bytes T failed = (search mode vault T failed).mapError .stopped := by
  rw [crackVault, h]

/-- Settles O58: the vault that editor and engine work on is the sorted one. -/
theorem rejectedVaultStopsEditorAndEngine : Obligations.RejectedVaultStopsEditorAndEngine := by
  unfold Obligations.RejectedVaultStopsEditorAndEngine
  refine fun p bytes => ⟨fun e h => ?_, fun rs h => ?_⟩
  · have hload := loadVault_of_parse_error h
    exact ⟨fun master => by rw [openVault, hload]; rfl, fun mode T failed => by rw [crackVault, hload]⟩
  · have hload := loadVault_of_parse_ok h
    have hnodup := parse_ok_slots_nodup h
    refine ⟨hnodup, sortBySlot rs, sortBySlot_perm rs, sortBySlot_pairwise hnodup, fun master => ?_,
      fun mode T failed cs hsearch => ?_, fun mode T failed e hsearch => ?_⟩
    · rw [openVault, hload]
      rfl
    all_goals
      rw [crackVault_of_loadVault hload, hsearch]
      rfl

end Sys2Proof.Machine
end

section
/-! PROOFS. The Cracking Engine (43_vault_software.md R115, R120 to R125, R132): which keys a worker evaluates, what a
key scores, and which candidates the merged search holds. -/

namespace Sys2Proof.Machine

/-! ## The workers' keys (R123) -/

/-- A worker's number of keys is a quotient rounded up, so its last stride is the last one below the bound. -/
theorem mem_workerKeys {bound T i k : Nat} (hi : i < T) : k ∈ workerKeys bound T i ↔ k < bound ∧ k % T = i := by
  have hstride (j : Nat) : j < (bound - i + T - 1) / T ↔ T * j < bound - i := by
    rw [← Nat.ceilDiv_eq_add_pred_div]
    exact lt_iff_lt_of_le_iff_le (ceilDiv_le_iff_le_mul (Nat.zero_lt_of_lt hi))
  simp only [workerKeys, List.mem_map, List.mem_range, hstride]
  constructor
  · rintro ⟨j, hj, rfl⟩
    refine ⟨by rw [Nat.mul_comm]; omega, ?_⟩
    rw [Nat.add_mul_mod_self_right, Nat.mod_eq_of_lt hi]
  · rintro ⟨hk, rfl⟩
    have hsplit := Nat.mod_add_div k T
    exact ⟨k / T, by omega, by rw [Nat.mul_comm]; exact hsplit⟩

theorem nodup_workerKeys {bound T : Nat} (hT : 0 < T) (i : Nat) : (workerKeys bound T i).Nodup :=
  List.nodup_range.map fun _ _ h => Nat.eq_of_mul_eq_mul_right hT (Nat.add_left_cancel h)

/-- Two workers share no key, since their keys differ modulo `T`. -/
theorem nodup_flatMap_workerKeys {bound T : Nat} (hT : 0 < T) : ((List.range T).flatMap (workerKeys bound T)).Nodup := by
  refine List.nodup_flatMap.mpr ⟨fun i _ => nodup_workerKeys hT i, List.nodup_range.pairwise_of_forall_ne ?_⟩
  intro i hi j hj hne k hki hkj
  rw [mem_workerKeys (List.mem_range.mp hi)] at hki
  rw [mem_workerKeys (List.mem_range.mp hj)] at hkj
  exact hne (hki.2.symm.trans hkj.2)

theorem mem_flatMap_workerKeys {bound T k : Nat} (hT : 0 < T) :
    k ∈ (List.range T).flatMap (workerKeys bound T) ↔ k < bound := by
  rw [List.mem_flatMap]
  constructor
  · rintro ⟨i, hi, hk⟩
    exact ((mem_workerKeys (List.mem_range.mp hi)).mp hk).1
  · intro hk
    have hlt := Nat.mod_lt k hT
    exact ⟨k % T, List.mem_range.mpr hlt, (mem_workerKeys hlt).mpr ⟨hk, rfl⟩⟩

/-- Settles O54: both lists are without duplicate and have the same members. -/
theorem workerStridesPartitionKeySpace : Obligations.WorkerStridesPartitionKeySpace := by
  unfold Obligations.WorkerStridesPartitionKeySpace
  intro bound T hT
  refine ⟨(List.perm_ext_iff_of_nodup (nodup_flatMap_workerKeys hT) List.nodup_range).mpr fun k => ?_,
    fun i hi k => mem_workerKeys hi⟩
  rw [mem_flatMap_workerKeys hT, List.mem_range]

/-! ## Scores (R121, R122) -/

section
variable {mode : SearchMode} {key : Word} {r : RawRecord} {rs : List RawRecord}

theorem scoreFrom_nil (mode : SearchMode) (key : Word) (acc : Nat) : scoreFrom mode key acc [] = acc := rfl

theorem scoreFrom_cons_implausible (acc : Nat) (h : 999999999 < (cipherDecode key r.slot r.word).toNat) :
    scoreFrom mode key acc (r :: rs) = 0 := if_pos h

theorem scoreFrom_cons_plausible (acc : Nat) (h : (cipherDecode key r.slot r.word).toNat ≤ 999999999) :
    scoreFrom mode key acc (r :: rs) =
      scoreFrom mode key (if mode.interesting.contains (cipherDecode key r.slot r.word) then acc + 1 else acc) rs :=
  if_neg (Nat.not_lt.mpr h)

/-- An implausible decode zeroes the score wherever its record stands. -/
theorem scoreFrom_of_implausible (acc : Nat) (h : ∃ r ∈ rs, 999999999 < (cipherDecode key r.slot r.word).toNat) :
    scoreFrom mode key acc rs = 0 := by
  induction rs generalizing acc with
  | nil => simp at h
  | cons q qs ih =>
    by_cases hq : 999999999 < (cipherDecode key q.slot q.word).toNat
    · exact scoreFrom_cons_implausible acc hq
    · rw [scoreFrom_cons_plausible acc (Nat.not_lt.mp hq)]
      exact ih _ (by simpa [hq] using h)

theorem scoreFrom_of_plausible (acc : Nat) (h : ∀ r ∈ rs, (cipherDecode key r.slot r.word).toNat ≤ 999999999) :
    scoreFrom mode key acc rs =
      acc + rs.countP fun r => mode.interesting.contains (cipherDecode key r.slot r.word) := by
  induction rs generalizing acc with
  | nil => exact scoreFrom_nil mode key acc
  | cons q qs ih =>
    obtain ⟨hq, hqs⟩ := List.forall_mem_cons.mp h
    rw [scoreFrom_cons_plausible acc hq, ih _ hqs, List.countP_cons]
    split <;> omega

end

/-- Settles O55: the two outcomes of the fold, from an empty count. -/
theorem implausibleDecodeZeroesScore : Obligations.ImplausibleDecodeZeroesScore := by
  unfold Obligations.ImplausibleDecodeZeroesScore
  exact fun mode vault key => ⟨scoreFrom_of_implausible 0, fun h => (scoreFrom_of_plausible 0 h).trans (Nat.zero_add _)⟩

/-- A vault of one record scores 1 under its own key where its pin counts, and else 0. -/
theorem score_own_key (mode : SearchMode) (key : Word) (id : Slot) {pin : Word} (r : Draw)
    (hpin : pin.toNat ≤ 999999999) :
    score mode [⟨id, cipherEncode key id pin r⟩] key = if pin ∈ mode.interesting then 1 else 0 := by
  have hdecode : cipherDecode key id (cipherEncode key id pin r) = pin :=
    (cipherDecode_cipherEncode key pin id r).trans (maskOut_of_lt (by omega))
  have hplausible : (cipherDecode key id (cipherEncode key id pin r)).toNat ≤ 999999999 := by rwa [hdecode]
  rw [score, scoreFrom_cons_plausible (r := ⟨id, cipherEncode key id pin r⟩) 0 hplausible, hdecode, scoreFrom_nil]
  simp only [List.contains_iff_mem, Nat.zero_add]

/-! ## The candidates of a search (R120, R122, R124, R125) -/

section
variable {mode : SearchMode} {vault : List RawRecord} {c : Candidate}

/-- Keys below `2^32` are masters, each its own. -/
theorem mem_workerCandidates {keys : List Nat} (hkeys : ∀ k ∈ keys, k < 2 ^ 32) :
    c ∈ workerCandidates mode vault keys ↔
      c.master.toNat ∈ keys ∧ c.score = score mode vault c.master ∧ c.score ≠ 0 := by
  rw [workerCandidates, List.mem_filterMap]
  constructor
  · rintro ⟨k, hk, hc⟩
    rw [Option.ite_none_left_eq_some] at hc
    obtain ⟨hscore, hc⟩ := hc
    obtain rfl := Option.some.inj hc
    have hmaster : (BitVec.ofNat 32 k).toNat = k := Nat.mod_eq_of_lt (hkeys k hk)
    exact ⟨hmaster.symm ▸ hk, rfl, hscore⟩
  · rintro ⟨hk, hscore, hne⟩
    have hmaster : BitVec.ofNat 32 c.master.toNat = c.master := by
      rw [BitVec.ofNat_toNat, BitVec.setWidth_eq]
    refine ⟨c.master.toNat, hk, ?_⟩
    simp only [hmaster, ← hscore, if_neg hne]

theorem mem_workerCandidates_workerKeys {bound T i : Nat} (hbound : bound ≤ 2 ^ 32) (hi : i < T) :
    c ∈ workerCandidates mode vault (workerKeys bound T i) ↔
      (c.master.toNat < bound ∧ c.master.toNat % T = i) ∧ c.score = score mode vault c.master ∧ c.score ≠ 0 := by
  rw [mem_workerCandidates, mem_workerKeys hi]
  exact fun k hk => ((mem_workerKeys hi).mp hk).1.trans_le hbound

/-- The merged candidates of the workers that did not fail (R124, R125). -/
def mergedCandidates (bound : Nat) (mode : SearchMode) (vault : List RawRecord) (T : Nat) (failed : Nat → Bool) :
    List Candidate :=
  (List.range T).flatMap fun i => if failed i then [] else workerCandidates mode vault (workerKeys bound T i)

theorem searchBelow_known_nil (bound : Nat) {T : Nat} (failed : Nat → Bool) (hT : 1 ≤ T) :
    searchBelow bound (.known []) vault T failed = .error .emptyKnownSet := if_neg (Nat.ne_of_gt hT)

theorem searchBelow_eq_ok (bound : Nat) {T : Nat} (failed : Nat → Bool) (hT : 1 ≤ T) (hmode : mode ≠ .known []) :
    searchBelow bound mode vault T failed = .ok (mergedCandidates bound mode vault T failed) := by
  refine (if_neg (Nat.ne_of_gt hT)).trans ?_
  match mode, hmode with
  | .heuristic _, _ => rfl
  | .known (_ :: _), _ => rfl

/-- A candidate can come only from the worker whose stride its key is in. -/
theorem mem_mergedCandidates {bound T : Nat} {failed : Nat → Bool} (hbound : bound ≤ 2 ^ 32) (hT : 1 ≤ T) :
    c ∈ mergedCandidates bound mode vault T failed ↔
      c.master.toNat < bound ∧ failed (c.master.toNat % T) = false ∧
        c.score = score mode vault c.master ∧ c.score ≠ 0 := by
  rw [mergedCandidates, List.mem_flatMap]
  constructor
  · rintro ⟨i, hi, hc⟩
    split at hc
    · exact absurd hc List.not_mem_nil
    · next hfailed =>
      obtain ⟨⟨hlt, rfl⟩, hscore⟩ := (mem_workerCandidates_workerKeys hbound (List.mem_range.mp hi)).mp hc
      exact ⟨hlt, Bool.eq_false_iff.mpr hfailed, hscore⟩
  · rintro ⟨hlt, hfailed, hscore⟩
    have hi := Nat.mod_lt c.master.toNat hT
    refine ⟨_, List.mem_range.mpr hi, ?_⟩
    rw [hfailed]
    exact (mem_workerCandidates_workerKeys hbound hi).mpr ⟨⟨hlt, rfl⟩, hscore⟩

theorem search_spec {T : Nat} (failed : Nat → Bool) (hT : 1 ≤ T) (hmode : mode ≠ .known []) :
    ∃ cs, search mode vault T failed = .ok cs ∧
      ∀ c : Candidate, c ∈ cs ↔ c.master.toNat < 1000000000 ∧ failed (c.master.toNat % T) = false ∧
        c.score = score mode vault c.master ∧ c.score ≠ 0 :=
  ⟨_, searchBelow_eq_ok _ failed hT hmode, fun _ => mem_mergedCandidates (by decide) hT⟩

end

/-- Settles O56: `search_spec`, and the one mode that does not run. -/
theorem searchReturnsEveryScoringKey : Obligations.SearchReturnsEveryScoringKey := by
  unfold Obligations.SearchReturnsEveryScoringKey
  exact fun mode vault T failed hT =>
    ⟨fun hmode => hmode ▸ searchBelow_known_nil _ failed hT, search_spec failed hT⟩

/-- Settles O57: under its own key the record scores 1 where 42 counts and 0 where it does not. -/
theorem scenarioKeyIsFoundInKnownModeOnly : Obligations.ScenarioKeyIsFoundInKnownModeOnly := by
  unfold Obligations.ScenarioKeyIsFoundInKnownModeOnly
  intro r weak hweak
  have hscore (mode : SearchMode) := score_own_key mode 123456789 7 (pin := 42) r (by decide)
  obtain ⟨known, hknown, hmemKnown⟩ := search_spec (mode := .known [42])
    (vault := [⟨7, cipherEncode 123456789 7 42 r⟩]) (fun _ => false) (le_refl 1) nofun
  obtain ⟨heuristic, hheuristic, hmemHeuristic⟩ := search_spec (mode := .heuristic weak)
    (vault := [⟨7, cipherEncode 123456789 7 42 r⟩]) (fun _ => false) (le_refl 1) nofun
  refine ⟨(cipherDecode_cipherEncode _ _ _ r).trans (maskOut_of_lt (by decide)),
    ⟨known, hknown, (hmemKnown _).mpr ⟨by decide, rfl, ?_, one_ne_zero⟩⟩, heuristic, hheuristic, ?_⟩
  · exact ((hscore (.known [42])).trans (if_pos (List.mem_singleton_self 42))).symm
  · intro c hc hmaster
    obtain ⟨-, -, hcscore, hne⟩ := (hmemHeuristic c).mp hc
    rw [hmaster, hscore] at hcscore
    exact hne (hcscore.trans (if_neg hweak))

end Sys2Proof.Machine
end

section
/-! PROOFS. The three faults and the Faulted condition (60_exceptions.md R135 to R143): which host write raises which
fault, what a fault changes, and that a Faulted block stands still until `Reset`. -/

namespace Sys2Proof.Machine

/-- Taking a fault, as R141 writes it: three fields change. -/
theorem takeFault_eq (f : BlockFault) (b : Block) :
    takeFault f b = { b with err := faultCode f, busy := false, done := false } := rfl

/-! ## The command words that fault (R137, R138) -/

/-- The write of a command word to an Idle block is `decode_cmd`'s answer to it (R52, R99). -/
theorem performEvent_command {s : State} (c : Word) (hidle : s.block.Idle) :
    performEvent (.hostWrite 2 c) s = .next (s.withBlock (answerTo (decodeCmd c) s.block)) := by
  rw [← writtenBlock_command c hidle]
  exact hostWrite_eq_writtenBlock 2 c s

/-- Settles O23: the two conditions are those of `decode_cmd`'s two rejections. -/
theorem badCommandWordRaisesItsFault : Obligations.BadCommandWordRaisesItsFault := by
  unfold Obligations.BadCommandWordRaisesItsFault
  refine ⟨fun s c hidle => ⟨fun hform => ?illegal, fun hz1 hz0 hopc harg => ?slot⟩,
    ⟨_, rfl, by decide⟩, ⟨_, rfl, by decide⟩, ⟨_, rfl, rfl, rfl⟩⟩
  case illegal =>
    have hdec : decodeCmd c = .illegalCommand := decodeCmd_eq_iff.mpr hform
    rw [performEvent_command c hidle, hdec]
    rfl
  case slot =>
    have hdec : decodeCmd c = .invalidSlot := decodeCmd_eq_iff.mpr ⟨hz1, hz0, hopc, harg⟩
    rw [performEvent_command c hidle, hdec]
    rfl

/-! ## The write that cuts a command short (R139) -/

/-- Settles O24: a busy block takes the fault whatever the value, and with `BUSY` cleared no tick is left to it. -/
theorem busyWriteCutsCommandShort : Obligations.BusyWriteCutsCommandShort := by
  unfold Obligations.BusyWriteCutsCommandShort
  refine ⟨fun s i v herr hbusy hi => ?_, ⟨_, rfl, by decide⟩⟩
  have hwrite : performEvent (.hostWrite i v) s = .next (s.withBlock (takeFault .busyWrite s.block)) := by
    rw [← writtenBlock_busy v hi herr hbusy]
    exact hostWrite_eq_writtenBlock i v s
  exact ⟨_, hwrite, rfl, fun r => tick_notBusy r rfl⟩

/-! ## Entering the Faulted condition (R141) -/

theorem faultCode_cases (f : BlockFault) : faultCode f = 1 ∨ faultCode f = 2 ∨ faultCode f = 3 := by
  cases f <;> decide

/-- Only a host write that raises a fault takes `ERR` from 0. -/
theorem BlockStep.err_setter {e : Event} {b b' : Block} (h : BlockStep e b b') (herr : b.err = 0)
    (herr' : b'.err ≠ 0) : (∃ i v, e = .hostWrite i v) ∧ ∃ f, b' = takeFault f b := by
  cases h with
  | turnedAway c f => exact ⟨⟨2, c, rfl⟩, f, rfl⟩
  | busyWrite v => exact ⟨⟨_, v, rfl⟩, .busyWrite, rfl⟩
  | reset => exact absurd rfl herr'
  | unchanged | writeSeed | writeDin | accepted | advancing | finalised => exact absurd herr herr'

/-- Settles O25: the two transitions that set `ERR` are both `takeFault`. -/
theorem faultEntryWritesOnlyErrBusyDone : Obligations.FaultEntryWritesOnlyErrBusyDone := by
  unfold Obligations.FaultEntryWritesOnlyErrBusyDone
  intro s t hstep herr herr'
  obtain ⟨hwrite, f, htblock⟩ := (blockStep_of_step hstep).err_setter herr herr'
  rw [htblock]
  exact ⟨hwrite, faultCode_cases f, takeFault_eq f s.block⟩

/-! ## The Faulted condition and its end (R142, R143) -/

/-- A Faulted block is neither Idle nor busy (R24 b), and every transition but `Reset` needs one of the two. -/
theorem BlockStep.eq_self_of_faulted {e : Event} {b b' : Block} (h : BlockStep e b b') (hinv : b.Inv)
    (hfault : b.Faulted) (he : e ≠ .reset) : b' = b := by
  have hbusy : b.busy ≠ true := fun hb => hfault (hinv.err_eq_zero_of_busy hb)
  cases h with
  | reset => exact absurd rfl he
  | unchanged => rfl
  | writeSeed _ hidle | writeDin _ hidle | accepted hidle | turnedAway _ _ hidle => exact absurd hidle.2 hfault
  | busyWrite _ _ _ hb | advancing _ hb | finalised _ _ hb => exact absurd hb hbusy

theorem step_of_nextEvent {s : State} {e : Event} (h : nextEvent s = e) :
    step s = performEvent e (afterNextEvent s) := by
  rw [step, h]

/-- Settles O26: no transition but `Reset` moves a Faulted block, and a read answers in every state. -/
theorem faultedBlockIsFrozenUntilReset : Obligations.FaultedBlockIsFrozenUntilReset := by
  unfold Obligations.FaultedBlockIsFrozenUntilReset
  intro s hinv hfault
  refine ⟨fun he => ?frozen, fun he => ⟨_, step_of_nextEvent he, rfl⟩⟩
  case frozen =>
    obtain ⟨t, hstep⟩ := step_eq_next_of_inv hinv
    refine ⟨t, hstep, (blockStep_of_step hstep).eq_self_of_faulted hinv hfault he, fun i hread => ?_⟩
    have ht : Host.Outcome.next t = .next (hostRead i (afterNextEvent s)) :=
      hstep.symm.trans (step_of_nextEvent hread)
    injection ht with ht
    rw [ht]
    rfl

end Sys2Proof.Machine
end

section
/-! PROOFS. Weak fairness (70_reset_and_hazards.md R166): with no event listed a step is a tick, so a command in
progress uses up its `COUNT` and finishes with the tick after. -/

namespace Sys2Proof.Machine

theorem Block.Inv.done_eq_false_of_busy {b : Block} (hinv : b.Inv) (hbusy : b.busy = true) : b.done = false :=
  Bool.eq_false_iff.mpr fun hdone => hinv.notBusyAndDone ⟨hbusy, hdone⟩

/-- With no event listed the first `COUNT` steps are advancing ticks, and change only the block. -/
theorem run_advancing_of_events_nil (k : Nat) {s : State} (hev : s.events = []) (hbusy : s.block.busy = true)
    (hk : k ≤ s.block.count.toNat) : run k s = .next (s.withBlock (afterTicks k s.block)) := by
  induction k generalizing s with
  | zero => rfl
  | succ k ih =>
    have hcount : s.block.count ≠ 0 := fun h => by simp [h] at hk
    have hstep := (step_nil hev).trans (tick_advancing none hbusy hcount)
    have hk' : k ≤ (advancingTick s.block).count.toNat := by
      rw [advancingTick_count, count_sub_one_toNat hcount]
      exact Nat.le_sub_one_of_lt hk
    exact (run_succ k hstep).trans (ih (s := s.withBlock (advancingTick s.block)) hev hbusy hk')

/-- With no event listed and no step left to do, the next step finishes the command. -/
theorem step_final_of_events_nil {s : State} (hev : s.events = []) (hinv : s.block.Inv)
    (hbusy : s.block.busy = true) (hcount : s.block.count = 0) :
    ∃ v t, step s = .next t ∧ t.block = finishWith v s.block ∧ t.events = [] := by
  obtain ⟨v, hv⟩ := exists_finalResult_of_busy hinv hbusy (drawValue none s.draws)
  have htick := (tick_final none hbusy hcount).trans (finalisationTick_of_result hv)
  exact ⟨v, _, (step_nil hev).trans htick, rfl, hev⟩

/-- Settles O43: `COUNT` advancing ticks, each leaving the command in progress, then the finalisation tick, which has
a result to write because the ticks before it keep R24. -/
theorem busyBlockFinishesInCountPlusOneSteps : Obligations.BusyBlockFinishesInCountPlusOneSteps := by
  unfold Obligations.BusyBlockFinishesInCountPlusOneSteps
  intro s hinv hbusy hev
  have hadvance (k : Nat) (hk : k ≤ s.block.count.toNat) := run_advancing_of_events_nil k hev hbusy hk
  refine ⟨?finished, fun k hk => ?inProgress⟩
  case inProgress =>
    exact ⟨_, hadvance k hk, by simpa using hbusy, by simpa using hinv.done_eq_false_of_busy hbusy⟩
  case finished =>
    have hrun := hadvance s.block.count.toNat le_rfl
    have hinv' := run_keeps (P := fun s => s.block.Inv) stepKeepsRegisterInvariants hinv hrun
    obtain ⟨v, u, hstep, hublock, huev⟩ :=
      step_final_of_events_nil (s := s.withBlock (afterTicks s.block.count.toNat s.block)) hev hinv'
        (by simpa using hbusy) (by simp)
    refine ⟨u, (run_add _ 1 hrun).trans (run_succ 0 hstep), ?_, ?_, ?_, huev⟩ <;> simp [hublock]

end Sys2Proof.Machine
end
